-- ==== Sys2Proof/Word.lean ====
section
/-! DEFINITION. The data word, the instruction word and the source operand of the g1 engine
(spec 00_scope.md R7, R8, R10; 30_encoding.md R47, R48). -/

namespace Sys2Proof

/-- One slot, immediate, operand value or result: 32 bits, read as a signed two's-complement integer
(`BitVec.toInt` is the spec's `sext_32`; R7, R8). -/
abbrev Word := BitVec 32

/-- One instruction word `w[143:0]` (R47, R48; the packing is the spec's decision D1). -/
abbrev InstrWord := BitVec 144

/-- A source operand (R10, R51): an immediate, or the slot number whose contents are the value.
The address is the whole 32-bit field, read as signed (R53). -/
inductive Operand
  | imm (v : Word)
  | addr (a : Word)
  deriving DecidableEq, Repr

end Sys2Proof
end

