-- ==== Sys2Proof/Syntax.lean ====
section
/-! DEFINITION. The fourteen instructions (spec 00_scope.md R1; 30_encoding.md R51), one constructor per row of
spec/opcode_table.json, in the table's order. -/

namespace Sys2Proof

/-- The abstract instruction of 30_encoding.md R47 with the operand shape of R51: `d` is a destination slot number
(kind `ADDR`), `t` a jump target (kind `TGT`), and every other operand a source (kind `IMM` or `ADDR`). -/
inductive Instr
  | mov (d : Word) (s : Operand)
  | add (d : Word) (a b : Operand)
  | sub (d : Word) (a b : Operand)
  | mul (d : Word) (a b : Operand)
  | div (d : Word) (a b : Operand)
  | mod (d : Word) (a b : Operand)
  | less (d : Word) (a b : Operand)
  | equal (d : Word) (a b : Operand)
  | not (d : Word) (s : Operand)
  | jmp (t : Word) (c : Operand)
  | color (r g b : Operand)
  | point (x y : Operand)
  | line (x1 y1 x2 y2 : Operand)
  | rect (x y w h : Operand)
  deriving DecidableEq, Repr

end Sys2Proof
end

