-- ==== Sys2Proof/WellFormed.lean ====
section
/-! DEFINITION. When an abstract instruction is well formed (spec 30_encoding.md R51, R54, R59). The operand counts and
kinds of R51 hold of every `Instr` by its type; what is left to check is the jump target. -/

namespace Sys2Proof

/-- A jump target is an instruction index 0 .. 2^31 - 1: bit 31 of the field is 0 (R54; R59 class 6). -/
def targetOk (t : Word) : Bool := !t.msb

/-- The check of R59 that `Instr`'s type does not already make. -/
def Instr.wf : Instr → Bool
  | .mov _ _ => true
  | .add _ _ _ => true
  | .sub _ _ _ => true
  | .mul _ _ _ => true
  | .div _ _ _ => true
  | .mod _ _ _ => true
  | .less _ _ _ => true
  | .equal _ _ _ => true
  | .not _ _ => true
  | .jmp t _ => targetOk t
  | .color _ _ _ => true
  | .point _ _ => true
  | .line _ _ _ _ => true
  | .rect _ _ _ _ => true

end Sys2Proof
end

