-- ==== Sys2Proof/Decode.lean ====
section
/-! DEFINITION. The instruction word, its decoder and its encoder (spec 30_encoding.md R48 to R59). -/

namespace Sys2Proof

/-- The fourteen opcode tags, in the order of R50. -/
inductive Opcode
  | mov | add | sub | mul | div | mod | less | equal | not | jmp | color | point | line | rect
  deriving DecidableEq, Repr

/-- Opcode numbers (R50, the spec's decision D2). -/
def Opcode.number : Opcode → BitVec 4
  | .mov => 0
  | .add => 1
  | .sub => 2
  | .mul => 3
  | .div => 4
  | .mod => 5
  | .less => 6
  | .equal => 7
  | .not => 8
  | .jmp => 9
  | .color => 10
  | .point => 11
  | .line => 12
  | .rect => 13

/-- The opcode a number stands for; 14 and 15 are unassigned (R50). -/
def Opcode.ofNumber (n : BitVec 4) : Option Opcode :=
  match n.toNat with
  | 0 => some .mov
  | 1 => some .add
  | 2 => some .sub
  | 3 => some .mul
  | 4 => some .div
  | 5 => some .mod
  | 6 => some .less
  | 7 => some .equal
  | 8 => some .not
  | 9 => some .jmp
  | 10 => some .color
  | 11 => some .point
  | 12 => some .line
  | 13 => some .rect
  | _ => none

/-- The opcode tag of an instruction. -/
def Instr.opcode : Instr → Opcode
  | .mov _ _ => .mov
  | .add _ _ _ => .add
  | .sub _ _ _ => .sub
  | .mul _ _ _ => .mul
  | .div _ _ _ => .div
  | .mod _ _ _ => .mod
  | .less _ _ _ => .less
  | .equal _ _ _ => .equal
  | .not _ _ => .not
  | .jmp _ _ => .jmp
  | .color _ _ _ => .color
  | .point _ _ => .point
  | .line _ _ _ _ => .line
  | .rect _ _ _ _ => .rect

/-- The ten fields of an instruction word (R48). -/
structure Fields where
  op : BitVec 4
  k0 : BitVec 2
  k1 : BitVec 2
  k2 : BitVec 2
  k3 : BitVec 2
  rsv : BitVec 4
  v0 : Word
  v1 : Word
  v2 : Word
  v3 : Word
  deriving DecidableEq, Repr

/-- The word layout of R48, read. -/
def Fields.ofWord (w : InstrWord) : Fields where
  op := w.extractLsb' 140 4
  k0 := w.extractLsb' 138 2
  k1 := w.extractLsb' 136 2
  k2 := w.extractLsb' 134 2
  k3 := w.extractLsb' 132 2
  rsv := w.extractLsb' 128 4
  v0 := w.extractLsb' 96 32
  v1 := w.extractLsb' 64 32
  v2 := w.extractLsb' 32 32
  v3 := w.extractLsb' 0 32

/-- The word layout of R48, written: the header, then the four value fields. -/
def Fields.toWord (f : Fields) : InstrWord :=
  (f.op ++ f.k0 ++ f.k1 ++ f.k2 ++ f.k3 ++ f.rsv : BitVec 16) ++ (f.v0 ++ f.v1 ++ f.v2 ++ f.v3 : BitVec 128)

/-- Operand kind codes (R49, the spec's decision D3). -/
def kindNone : BitVec 2 := 0
def kindImm : BitVec 2 := 1
def kindAddr : BitVec 2 := 2
def kindTgt : BitVec 2 := 3

/-- Why a word spells no instruction: the six classes of R59, in their order. -/
inductive Illegal
  /-- Class 1: `op` is 14 or 15. -/
  | unknownOpcode
  /-- Class 2: the reserved bits are not zero. -/
  | reservedBits
  /-- Class 3: a used slot has a kind its role does not accept. -/
  | kindMismatch
  /-- Class 4: an unused slot has a kind other than `NONE`. -/
  | extraOperand
  /-- Class 5: an unused slot has a non-zero value field. -/
  | unusedValue
  /-- Class 6: the jump target's bit 31 is set. -/
  | negativeTarget
  deriving DecidableEq, Repr

/-- A destination slot: kind `ADDR` only (R51, R55). -/
def destOf (k : BitVec 2) (v : Word) : Except Illegal Word :=
  if k = kindAddr then .ok v else .error .kindMismatch

/-- A source slot: kind `IMM` or `ADDR` (R51, R55). -/
def sourceOf (k : BitVec 2) (v : Word) : Except Illegal Operand :=
  if k = kindImm then .ok (.imm v)
  else if k = kindAddr then .ok (.addr v)
  else .error .kindMismatch

/-- A target slot: kind `TGT`, bit 31 clear (R51, R54, R55). -/
def targetOf (k : BitVec 2) (v : Word) : Except Illegal Word :=
  if k = kindTgt then (if targetOk v then .ok v else .error .negativeTarget) else .error .kindMismatch

/-- An unused slot: kind `NONE` and value 0 (R51, R55). -/
def unusedSlot (k : BitVec 2) (v : Word) : Except Illegal Unit :=
  if k = kindNone then (if v = 0 then .ok () else .error .unusedValue) else .error .extraOperand

/-- Shape `d s - -`. -/
def shapeDS (f : Fields) (mk : Word → Operand → Instr) : Except Illegal Instr := do
  let d ← destOf f.k0 f.v0
  let s ← sourceOf f.k1 f.v1
  unusedSlot f.k2 f.v2
  unusedSlot f.k3 f.v3
  return mk d s

/-- Shape `d a b -`. -/
def shapeDSS (f : Fields) (mk : Word → Operand → Operand → Instr) : Except Illegal Instr := do
  let d ← destOf f.k0 f.v0
  let a ← sourceOf f.k1 f.v1
  let b ← sourceOf f.k2 f.v2
  unusedSlot f.k3 f.v3
  return mk d a b

/-- Shape `t c - -`. -/
def shapeTS (f : Fields) (mk : Word → Operand → Instr) : Except Illegal Instr := do
  let t ← targetOf f.k0 f.v0
  let c ← sourceOf f.k1 f.v1
  unusedSlot f.k2 f.v2
  unusedSlot f.k3 f.v3
  return mk t c

/-- Shape `a b - -`, sources only. -/
def shapeSS (f : Fields) (mk : Operand → Operand → Instr) : Except Illegal Instr := do
  let a ← sourceOf f.k0 f.v0
  let b ← sourceOf f.k1 f.v1
  unusedSlot f.k2 f.v2
  unusedSlot f.k3 f.v3
  return mk a b

/-- Shape `a b c -`, sources only. -/
def shapeSSS (f : Fields) (mk : Operand → Operand → Operand → Instr) : Except Illegal Instr := do
  let a ← sourceOf f.k0 f.v0
  let b ← sourceOf f.k1 f.v1
  let c ← sourceOf f.k2 f.v2
  unusedSlot f.k3 f.v3
  return mk a b c

/-- Shape `a b c d`, sources only. -/
def shapeSSSS (f : Fields) (mk : Operand → Operand → Operand → Operand → Instr) : Except Illegal Instr := do
  let a ← sourceOf f.k0 f.v0
  let b ← sourceOf f.k1 f.v1
  let c ← sourceOf f.k2 f.v2
  let d ← sourceOf f.k3 f.v3
  return mk a b c d

/-- The operand shapes of R51, one row per opcode. -/
def decodeShape (f : Fields) : Opcode → Except Illegal Instr
  | .mov => shapeDS f .mov
  | .add => shapeDSS f .add
  | .sub => shapeDSS f .sub
  | .mul => shapeDSS f .mul
  | .div => shapeDSS f .div
  | .mod => shapeDSS f .mod
  | .less => shapeDSS f .less
  | .equal => shapeDSS f .equal
  | .not => shapeDS f .not
  | .jmp => shapeTS f .jmp
  | .color => shapeSSS f .color
  | .point => shapeSS f .point
  | .line => shapeSSSS f .line
  | .rect => shapeSSSS f .rect

/-- Decoding the fields (R55). The class named is the first one met: opcode, reserved bits, then the slots left to right;
the engine makes nothing of which class it was (R55: every failing word gives the same `Illegal`). -/
def decodeFields (f : Fields) : Except Illegal Instr :=
  match Opcode.ofNumber f.op with
  | none => .error .unknownOpcode
  | some o => if f.rsv = 0 then decodeShape f o else .error .reservedBits

/-- `decode` of R55, total on every 144-bit word. -/
def decode (w : InstrWord) : Except Illegal Instr := decodeFields (Fields.ofWord w)

/-- The kind and value field that carry a source operand (R49). -/
def Operand.kind : Operand → BitVec 2
  | .imm _ => kindImm
  | .addr _ => kindAddr

def Operand.value : Operand → Word
  | .imm v => v
  | .addr a => a

/-- The fields of an instruction's word (R48 to R51): unused slots and the reserved bits are zero. -/
def Instr.fields (i : Instr) : Fields :=
  let n := i.opcode.number
  match i with
  | .mov d s => ⟨n, kindAddr, s.kind, 0, 0, 0, d, s.value, 0, 0⟩
  | .add d a b => ⟨n, kindAddr, a.kind, b.kind, 0, 0, d, a.value, b.value, 0⟩
  | .sub d a b => ⟨n, kindAddr, a.kind, b.kind, 0, 0, d, a.value, b.value, 0⟩
  | .mul d a b => ⟨n, kindAddr, a.kind, b.kind, 0, 0, d, a.value, b.value, 0⟩
  | .div d a b => ⟨n, kindAddr, a.kind, b.kind, 0, 0, d, a.value, b.value, 0⟩
  | .mod d a b => ⟨n, kindAddr, a.kind, b.kind, 0, 0, d, a.value, b.value, 0⟩
  | .less d a b => ⟨n, kindAddr, a.kind, b.kind, 0, 0, d, a.value, b.value, 0⟩
  | .equal d a b => ⟨n, kindAddr, a.kind, b.kind, 0, 0, d, a.value, b.value, 0⟩
  | .not d s => ⟨n, kindAddr, s.kind, 0, 0, 0, d, s.value, 0, 0⟩
  | .jmp t c => ⟨n, kindTgt, c.kind, 0, 0, 0, t, c.value, 0, 0⟩
  | .color r g b => ⟨n, r.kind, g.kind, b.kind, 0, 0, r.value, g.value, b.value, 0⟩
  | .point x y => ⟨n, x.kind, y.kind, 0, 0, 0, x.value, y.value, 0, 0⟩
  | .line x1 y1 x2 y2 => ⟨n, x1.kind, y1.kind, x2.kind, y2.kind, 0, x1.value, y1.value, x2.value, y2.value⟩
  | .rect x y w h => ⟨n, x.kind, y.kind, w.kind, h.kind, 0, x.value, y.value, w.value, h.value⟩

/-- The word of an instruction (R56). -/
def encode (i : Instr) : InstrWord := i.fields.toWord

/-- One row of the opcode map of R58. -/
structure OpRow where
  op : Opcode
  mask : InstrWord
  bits : InstrWord
  /-- The slots whose kind must be `IMM` or `ADDR`. -/
  sources : List Nat
  deriving DecidableEq, Repr

/-- The opcode map of R58: `bits` is its column `match`. -/
def opcodeMap : List OpRow := [
  ⟨.mov,   0xFCFF0000000000000000FFFFFFFFFFFFFFFF#144, 0x080000000000000000000000000000000000#144, [1]⟩,
  ⟨.add,   0xFC3F000000000000000000000000FFFFFFFF#144, 0x180000000000000000000000000000000000#144, [1, 2]⟩,
  ⟨.sub,   0xFC3F000000000000000000000000FFFFFFFF#144, 0x280000000000000000000000000000000000#144, [1, 2]⟩,
  ⟨.mul,   0xFC3F000000000000000000000000FFFFFFFF#144, 0x380000000000000000000000000000000000#144, [1, 2]⟩,
  ⟨.div,   0xFC3F000000000000000000000000FFFFFFFF#144, 0x480000000000000000000000000000000000#144, [1, 2]⟩,
  ⟨.mod,   0xFC3F000000000000000000000000FFFFFFFF#144, 0x580000000000000000000000000000000000#144, [1, 2]⟩,
  ⟨.less,  0xFC3F000000000000000000000000FFFFFFFF#144, 0x680000000000000000000000000000000000#144, [1, 2]⟩] ++ [
  ⟨.equal, 0xFC3F000000000000000000000000FFFFFFFF#144, 0x780000000000000000000000000000000000#144, [1, 2]⟩,
  ⟨.not,   0xFCFF0000000000000000FFFFFFFFFFFFFFFF#144, 0x880000000000000000000000000000000000#144, [1]⟩,
  ⟨.jmp,   0xFCFF8000000000000000FFFFFFFFFFFFFFFF#144, 0x9C0000000000000000000000000000000000#144, [1]⟩,
  ⟨.color, 0xF03F000000000000000000000000FFFFFFFF#144, 0xA00000000000000000000000000000000000#144, [0, 1, 2]⟩,
  ⟨.point, 0xF0FF0000000000000000FFFFFFFFFFFFFFFF#144, 0xB00000000000000000000000000000000000#144, [0, 1]⟩,
  ⟨.line,  0xF00F00000000000000000000000000000000#144, 0xC00000000000000000000000000000000000#144, [0, 1, 2, 3]⟩,
  ⟨.rect,  0xF00F00000000000000000000000000000000#144, 0xD00000000000000000000000000000000000#144, [0, 1, 2, 3]⟩]

/-- The instruction the decoder reads from the bits `w` of a table row of `nbits` bits. An instruction is one word, whose
bit 0 is bit 0 of the number; the bits above `nbits` are 0, and no instruction is longer than 144 bits (R57). -/
def decodeTableWord (nbits w : Nat) : Option Instr :=
  if nbits ≤ 144 then (decode (BitVec.ofNat 144 (w % 2 ^ nbits))).toOption else none

end Sys2Proof
end

