-- ==== Sys2Proof/Config.lean ====
section
/-! DEFINITION. The construction parameters of an engine instance (spec 00_scope.md R6; 10_state.md R20). They are plain
data that State carries, so that a claim about every state is a claim about every instance. -/

namespace Sys2Proof

/-- The parameters of 00_scope.md R6. `PROG_LEN` is the length of `imem`, so that every index below it has a word. -/
structure Params where
  /-- `MEM_SIZE`: number of Memory slots. -/
  memSize : Nat
  /-- `IMem`: the instruction store, read-only (20_memory.md R46). -/
  imem : List InstrWord
  /-- `TICK_PC`: index of the `tick` label. -/
  tickPc : Nat
  /-- `START_VALID`: whether a `start` label exists. -/
  startValid : Bool
  /-- `START_PC`: index of the `start` label, ignored when `startValid` is false. -/
  startPc : Nat
  /-- `MEM_INIT`: Memory's contents at reset as (slot, value) pairs; a slot not listed holds 0. OPEN parameter (D14). -/
  memInit : List (Nat × Word)
  /-- `DQ_DEPTH`: capacity of the draw queue, `none` when unbounded. OPEN parameter (D16). -/
  dqDepth : Option Nat
  /-- `DIV_OVERFLOW_RESULT`: the result of -2147483648 `div` -1. OPEN parameter (D10). -/
  divOverflowResult : Word
  deriving DecidableEq, Repr

/-- `PROG_LEN`. -/
def Params.progLen (p : Params) : Nat := p.imem.length

/-- The least number of slots: "sizes < 32 are silently raised to 32" (R6). -/
def minMemSize : Nat := 32

/-- The spec's bound 2^31 on sizes and indices (R6, decision D26). -/
def indexBound : Nat := 2 ^ 31

/-- What the Loader hands over (R118): the words, the `tick` index and, if there is one, the `start` index. -/
structure Program where
  words : List InstrWord
  tick : Nat
  start : Option Nat
  deriving DecidableEq, Repr

/-- Parameters of the instance built from a program and a requested memory size, with the OPEN parameters at the
spec's defaults (R6, 70_reset_and_hazards.md R118): `MEM_SIZE = max(32, requested)`. -/
def Params.ofProgram (p : Program) (requested : Nat) : Params where
  memSize := max minMemSize requested
  imem := p.words
  tickPc := p.tick
  startValid := p.start.isSome
  startPc := p.start.getD 0
  memInit := []
  dqDepth := none
  divOverflowResult := 0x80000000#32

/-- The program that is only the line `tick:`: no instruction, `TICK_PC = 0`, no `start` label. -/
def Program.empty : Program := ⟨[], 0, none⟩

end Sys2Proof
end

