-- ==== Sys2Proof/Machine/State.lean ====
section
/-! DEFINITION. The state of an engine instance, the host's side of it, and the state after reset
(spec 10_state.md R15 to R28; 45_run_control.md R89). -/

namespace Sys2Proof.Machine

open Sys2Proof

/-- `phase` (R19). -/
inductive Phase
  | idle | runStart | ready | runTick
  deriving DecidableEq, Repr

/-- The three faults of 60_exceptions.md R100 to R102. In this machine a fault ends the RUN and the machine goes on (R104):
it is taken as a next state, it does not stop the model. -/
inductive FaultKind
  | outOfBounds | divisionByZero | illegalInstruction
  deriving DecidableEq, Repr

/-- `res.status` (R23). -/
inductive RunStatus
  | none | ok | err
  deriving DecidableEq, Repr

/-- The run result record `res` (R23). `cause` is the error kind, `none` (code 0) unless the status is `err`; `fpc` and
`fop` are the faulting instruction index and opcode field, 0 unless the status is `err`. -/
structure RunResult where
  status : RunStatus
  cause : Option FaultKind
  fpc : Nat
  fop : BitVec 4
  deriving DecidableEq, Repr

/-- The current draw colour `cc` (R21). -/
structure Color where
  r : BitVec 8
  g : BitVec 8
  b : BitVec 8
  deriving DecidableEq, Repr

/-- A draw command (R28): the operand values, carried unchanged. -/
inductive DrawCmd
  | setColor (r g b : Word)
  | point (x y : Word)
  | line (x1 y1 x2 y2 : Word)
  | rect (x y w h : Word)
  deriving DecidableEq, Repr

/-- The data Memory `M` (R15, R39): the slots that do not hold `Memory.unlisted`, as (slot number, value) pairs with
strictly rising slot numbers. -/
abbrev Memory := List (Nat × Word)

/-- What a slot that is not listed holds: 0, the default of `MEM_INIT` (R26, D14; assumption 2). -/
def Memory.unlisted : Word := 0

/-- The host's transactions (45_run_control.md R89). -/
inductive Transaction
  | reset
  | runStart
  | runTick
  | hostRead (a : Word)
  | hostWrite (a v : Word)
  | readResult
  | readDraw
  deriving DecidableEq, Repr

/-- One entry of the schedule, by which the state says whose move is next (assumption 6). -/
inductive Turn
  /-- The engine moves once (it keeps all state when no run is in progress). -/
  | engine
  /-- The host waits for the run in progress to end (70_reset_and_hazards.md R121): the engine moves while it runs. -/
  | await
  /-- The host issues a transaction now. -/
  | issue (t : Transaction)
  deriving DecidableEq, Repr

/-- What a transaction answers to the host (R96, R97). -/
inductive Reply
  /-- The transaction was carried out and returns nothing. -/
  | done
  /-- `host_read`'s value. -/
  | value (v : Word)
  /-- A host access out of bounds failed (R96). -/
  | outOfBounds
  /-- `read_result`'s record. -/
  | result (r : RunResult)
  /-- `read_draw`'s sequence. -/
  | draw (q : List DrawCmd)
  deriving DecidableEq, Repr

/-- Why the model stops with a fault. The three faults of the g1 engine are not among them: they are next states. -/
inductive Fault
  /-- Raised by `color`, `point`, `line` and `rect` when `DQ_DEPTH` is finite and the queue is full: the engine has no step
  there, and no command is dropped (93_implementation_defined.md U4; assumption 5). Safe. -/
  | drawQueueFull
  deriving DecidableEq, Repr

/-- Why the model refuses a step. -/
inductive Refusal
  /-- Raised by an arm of `exec` whose instruction has no meaning yet; no arm does. Safe. -/
  | notModelled (mnemonic : String)
  /-- Raised by a turn in which the host issues a transaction that the phase does not enable: the spec gives it no move
  (45_run_control.md R90; 93_implementation_defined.md U6, U7; assumption 7). Safe. -/
  | transactionNotEnabled
  deriving DecidableEq, Repr

/-- The complete state: the engine's `(M, pc, phase, cc, dq, res)` (10_state.md), its construction parameters (R20), and
the host's side, which no rule of the engine reads. -/
structure State where
  /-- `M` (R15). -/
  mem : Memory
  /-- The index of the instruction being executed (R17). -/
  pc : Nat
  phase : Phase
  /-- The current draw colour (R21). -/
  cc : Color
  /-- The draw queue, oldest command first (R22). -/
  dq : List DrawCmd
  /-- The result of the most recent run (R23). -/
  res : RunResult
  /-- The construction parameters, which nothing changes (R20). -/
  params : Params
  /-- The turns still to come; when none is left the engine moves. The model's own field (assumption 6). -/
  schedule : List Turn
  /-- What the host's transactions were answered, oldest first. The model's own field (assumption 6). -/
  replies : List Reply
  deriving DecidableEq, Repr

/-- `(NONE, 0, 0, 0)` (R23). -/
def RunResult.cleared : RunResult := ⟨.none, none, 0, 0⟩

/-- `(OK, 0, 0, 0)` (R23). -/
def RunResult.success : RunResult := ⟨.ok, none, 0, 0⟩

/-- Black, `cc` at reset (R21, R26, D15; assumption 12). -/
def Color.black : Color := ⟨0, 0, 0⟩

/-- The state after reset (R26) of the instance that holds no program yet (assumption 3): the parameters are those of the
empty program with requested memory size 0. -/
def State.reset : State where
  mem := []
  pc := 0
  phase := .idle
  cc := .black
  dq := []
  res := .cleared
  params := Params.ofProgram Program.empty 0
  schedule := []
  replies := []

end Sys2Proof.Machine
end

