-- ==== Sys2Proof/Machine/Ops.lean ====
section
/-! DEFINITION. The named operations over Memory, the draw queue and the engine's registers, and the fault entry
(spec 00_scope.md R9 to R12; 20_memory.md; 60_exceptions.md R104). -/

namespace Sys2Proof.Machine

open Sys2Proof

/-- What the instructions' outcomes are. -/
abbrev Result := Host.Outcome State Fault Refusal

/-- The slots' canonical form from slot `lo` on: slot numbers strictly rise and no listed slot holds the unlisted value. -/
def Memory.wfFrom : Nat → Memory → Bool
  | _, [] => true
  | lo, (b, w) :: m => decide (lo ≤ b) && decide (w ≠ Memory.unlisted) && Memory.wfFrom (b + 1) m

/-- The canonical form of Memory. -/
def Memory.wf (m : Memory) : Bool := Memory.wfFrom 0 m

/-- Every listed slot is below `n`. -/
def Memory.below (n : Nat) (m : Memory) : Bool := m.all fun c => decide (c.1 < n)

/-- `M[a]` (R15). -/
def Memory.read : Memory → Nat → Word
  | [], _ => Memory.unlisted
  | (b, w) :: m, a => if a = b then w else Memory.read m a

/-- A slot written at the head of a canonical list whose slots all lie above it. -/
def Memory.put (m : Memory) (a : Nat) (v : Word) : Memory :=
  if v = Memory.unlisted then m else (a, v) :: m

/-- `M[a] <- v`, keeping the canonical form (R9, R38). -/
def Memory.write : Memory → Nat → Word → Memory
  | [], a, v => Memory.put [] a v
  | (b, w) :: m, a, v =>
    if a < b then Memory.put ((b, w) :: m) a v
    else if a = b then Memory.put m a v
    else (b, w) :: Memory.write m a v

/-- The bounds check of R9 and R32: `0 ≤ addr < MEM_SIZE`, the address read as a signed integer. -/
def State.inBounds (s : State) (a : Word) : Bool :=
  decide (0 ≤ a.toInt) && decide (a.toInt < (s.params.memSize : Int))

/-- `MemRead` (R9). -/
def State.memRead (s : State) (a : Word) : Except FaultKind Word :=
  if s.inBounds a then .ok (s.mem.read a.toInt.toNat) else .error .outOfBounds

/-- `MemWrite` (R9). -/
def State.memWrite (s : State) (a v : Word) : Except FaultKind State :=
  if s.inBounds a then .ok { s with mem := s.mem.write a.toInt.toNat v } else .error .outOfBounds

/-- `pc <- pc + 1` (R12, R17). -/
def State.advance (s : State) : State := { s with pc := s.pc + 1 }

/-- `pc <- target` (R12). -/
def State.jumpTo (s : State) (t : Nat) : State := { s with pc := t }

/-- Whether the draw queue takes one more command (R22; `DQ_DEPTH`). -/
def State.hasRoom (s : State) : Bool :=
  match s.params.dqDepth with
  | none => true
  | some n => decide (s.dq.length < n)

/-- `push(c)` (R12, R22). -/
def State.push (s : State) (c : DrawCmd) : State := { s with dq := s.dq ++ [c] }

/-- Fault entry (60_exceptions.md R104): the report holds the fault, the instruction's index and its opcode field, and the
run is over; nothing else changes. There is no handler, and so no return from one (R108, R109). -/
def State.takeFault (s : State) (k : FaultKind) (op : BitVec 4) : State :=
  { s with res := ⟨.err, some k, s.pc, op⟩, phase := .ready }

/-- The word at `pc` (45_run_control.md R94). The default is never fetched: the end-of-run test comes first. -/
def State.fetch (s : State) : InstrWord := s.params.imem.getD s.pc 0

/-- The raw opcode field `w[143:140]`, which a report of an ill-formed word holds (R103). -/
def opcodeField (w : InstrWord) : BitVec 4 := (Fields.ofWord w).op

/-- Codes of `phase` (R19, D19). -/
def Phase.code : Phase → BitVec 2
  | .idle => 0
  | .runStart => 1
  | .ready => 2
  | .runTick => 3

/-- Codes of `res.status` (R23, D17). -/
def RunStatus.code : RunStatus → BitVec 2
  | .none => 0
  | .ok => 1
  | .err => 2

/-- Codes of the faults (R103, D7). -/
def FaultKind.code : FaultKind → BitVec 2
  | .outOfBounds => 1
  | .divisionByZero => 2
  | .illegalInstruction => 3

/-- The code in `res.cause` (R103). -/
def RunResult.causeCode (r : RunResult) : BitVec 2 :=
  match r.cause with
  | none => 0
  | some k => k.code

/-- The packed draw command of 130 bits (R28, D22): the tag, then four arguments, the unused ones zero. -/
def DrawCmd.pack : DrawCmd → BitVec 130
  | .setColor r g b => (0#2 ++ r ++ g ++ b ++ 0#32 : BitVec 130)
  | .point x y => (1#2 ++ x ++ y ++ 0#32 ++ 0#32 : BitVec 130)
  | .line x1 y1 x2 y2 => (2#2 ++ x1 ++ y1 ++ x2 ++ y2 : BitVec 130)
  | .rect x y w h => (3#2 ++ x ++ y ++ w ++ h : BitVec 130)

end Sys2Proof.Machine
end

