-- ==== Sys2Proof/Machine/Operands.lean ====
section
/-! DEFINITION. Operand evaluation, the narrowing of exact results, and the shared sequences of the instruction families
(spec 00_scope.md R7, R10; 40_data_move.md R67; 41_arithmetic.md R69; 44_draw_io.md R83). -/

namespace Sys2Proof.Machine

open Sys2Proof

/-- `val(k, v)` (R10). -/
def State.val (s : State) : Operand → Except FaultKind Word
  | .imm v => .ok v
  | .addr a => s.memRead a

/-- `to_i32` (R7): the low 32 bits of an exact integer, read as signed. -/
def toI32 (z : Int) : Word := BitVec.ofInt 32 z

/-- An instruction's last act when it raised `k`: the fault entry, with its opcode number (R103, R104). -/
def State.raise (s : State) (o : Opcode) (k : FaultKind) : Result := .next (s.takeFault k o.number)

/-- `MemWrite(d, r); pc <- pc + 1` (R67, R69). -/
def State.store (s : State) (o : Opcode) (d r : Word) : Result :=
  match s.memWrite d r with
  | .error k => s.raise o k
  | .ok t => .next t.advance

/-- The sequence of the one-source instructions `d s` (R67, R78). -/
def State.compute1 (s : State) (o : Opcode) (d : Word) (a : Operand) (f : Word → Word) : Result :=
  match s.val a with
  | .error k => s.raise o k
  | .ok x => s.store o d (f x)

/-- The sequence of the two-source instructions `d a b` (R69): both sources, then the result, then the destination. -/
def State.compute2 (s : State) (o : Opcode) (d : Word) (a b : Operand)
    (f : Word → Word → Except FaultKind Word) : Result :=
  match s.val a with
  | .error k => s.raise o k
  | .ok x =>
    match s.val b with
    | .error k => s.raise o k
    | .ok y =>
      match f x y with
      | .error k => s.raise o k
      | .ok r => s.store o d r

/-- The end of a draw instruction (R83): `push`, the colour, `pc <- pc + 1`; with a full queue the engine has no step (U4). -/
def State.emit (s : State) (c : DrawCmd) (col : Color) : Result :=
  if s.hasRoom then .next { s.push c with cc := col, pc := s.pc + 1 } else .fault .drawQueueFull

/-- The low 8 bits of a colour component (R84, D15). -/
def lowByte (x : Word) : BitVec 8 := x.extractLsb' 0 8

end Sys2Proof.Machine
end

