-- ==== Sys2Proof/Machine/Arith.lean ====
section
/-! DEFINITION. Integer arithmetic (spec 41_arithmetic.md R69 to R75): exact integers, narrowed at the end by `toI32`. -/

namespace Sys2Proof.Machine

open Sys2Proof

/-- `f` of R70. -/
def addWord (x y : Word) : Word := toI32 (x.toInt + y.toInt)

/-- `f` of R71. -/
def subWord (x y : Word) : Word := toI32 (x.toInt - y.toInt)

/-- `f` of R72. -/
def mulWord (x y : Word) : Word := toI32 (x.toInt * y.toInt)

/-- `trunc(x / y)` (R7, R73): the exact quotient rounded toward zero. -/
def truncDiv (x y : Word) : Int := Int.tdiv x.toInt y.toInt

/-- The one quotient that is no `i32`: -2147483648 by -1 (R73). -/
def divOverflows (x y : Word) : Bool := decide (x = 0x80000000#32) && decide (y = 0xFFFFFFFF#32)

/-- `f` of R73, with the overflowing quotient the parameter `DIV_OVERFLOW_RESULT` (R6, D10; assumption 4). -/
def divWord (overflow x y : Word) : Except FaultKind Word :=
  if y = 0 then .error .divisionByZero
  else if divOverflows x y then .ok overflow
  else .ok (toI32 (truncDiv x y))

/-- `f` of R74, from the exact quotient. -/
def modWord (x y : Word) : Except FaultKind Word :=
  if y = 0 then .error .divisionByZero
  else .ok (toI32 (x.toInt - y.toInt * truncDiv x y))

/-- `add d a b` (R70). -/
def execAdd (d : Word) (a b : Operand) (s : State) : Result :=
  s.compute2 .add d a b fun x y => .ok (addWord x y)

/-- `sub d a b` (R71). -/
def execSub (d : Word) (a b : Operand) (s : State) : Result :=
  s.compute2 .sub d a b fun x y => .ok (subWord x y)

/-- `mul d a b` (R72). -/
def execMul (d : Word) (a b : Operand) (s : State) : Result :=
  s.compute2 .mul d a b fun x y => .ok (mulWord x y)

/-- `div d a b` (R73). -/
def execDiv (d : Word) (a b : Operand) (s : State) : Result :=
  s.compute2 .div d a b (divWord s.params.divOverflowResult)

/-- `mod d a b` (R74). -/
def execMod (d : Word) (a b : Operand) (s : State) : Result :=
  s.compute2 .mod d a b modWord

end Sys2Proof.Machine
end

