-- ==== Sys2Proof/Machine/Flags.lean ====
section
/-! DEFINITION. The machine has no flags (spec 10_state.md R18): a comparison's outcome is a value in a slot. This file holds
the two places where a truth value meets a word (42_compare_logic.md R76 to R79; 43_control_flow.md R80). -/

namespace Sys2Proof.Machine

open Sys2Proof

/-- The word that stands for a truth value: 1 for true, 0 for false (R76 to R78). -/
def truth (b : Bool) : Word := if b then 1 else 0

/-- What `jmp` takes as true: any non-zero value, negative ones included (R79, R80). -/
def isTrue (x : Word) : Bool := decide (x ≠ 0)

end Sys2Proof.Machine
end

