-- ==== Sys2Proof/Machine/Compare.lean ====
section
/-! DEFINITION. Comparison and logic (spec 42_compare_logic.md). -/

namespace Sys2Proof.Machine

open Sys2Proof

/-- `x < y`, both read as signed integers (R76, D23). -/
def lessWord (x y : Word) : Word := truth (decide (x.toInt < y.toInt))

/-- `x = y` (R77). -/
def equalWord (x y : Word) : Word := truth (decide (x = y))

/-- Logical negation (R78). -/
def notWord (x : Word) : Word := truth (decide (x = 0))

/-- `less d a b` (R76). -/
def execLess (d : Word) (a b : Operand) (s : State) : Result :=
  s.compute2 .less d a b fun x y => .ok (lessWord x y)

/-- `equal d a b` (R77). -/
def execEqual (d : Word) (a b : Operand) (s : State) : Result :=
  s.compute2 .equal d a b fun x y => .ok (equalWord x y)

/-- `not d s` (R78). -/
def execNot (d : Word) (a : Operand) (s : State) : Result := s.compute1 .not d a notWord

end Sys2Proof.Machine
end

