-- ==== Sys2Proof/Machine/Control.lean ====
section
/-! DEFINITION. Control transfer (spec 43_control_flow.md). -/

namespace Sys2Proof.Machine

open Sys2Proof

/-- `jmp t c` (R80): the condition is evaluated first, whether or not the jump is then taken. -/
def execJmp (t : Word) (c : Operand) (s : State) : Result :=
  match s.val c with
  | .error k => s.raise .jmp k
  | .ok x => .next (if isTrue x then s.jumpTo t.toNat else s.advance)

end Sys2Proof.Machine
end

