-- ==== Sys2Proof/Machine/Draw.lean ====
section
/-! DEFINITION. Drawing output (spec 44_draw_io.md R83 to R88): all operands, left to right, then the one append. -/

namespace Sys2Proof.Machine

open Sys2Proof

/-- The sequence of the two-operand draw instructions (R83). -/
def State.draw2 (s : State) (o : Opcode) (a b : Operand) (mk : Word → Word → DrawCmd) : Result :=
  match s.val a with
  | .error k => s.raise o k
  | .ok x =>
    match s.val b with
    | .error k => s.raise o k
    | .ok y => s.emit (mk x y) s.cc

/-- The sequence of the four-operand draw instructions (R83). -/
def State.draw4 (s : State) (o : Opcode) (a b c d : Operand) (mk : Word → Word → Word → Word → DrawCmd) : Result :=
  match s.val a with
  | .error k => s.raise o k
  | .ok x0 =>
    match s.val b with
    | .error k => s.raise o k
    | .ok x1 =>
      match s.val c with
      | .error k => s.raise o k
      | .ok x2 =>
        match s.val d with
        | .error k => s.raise o k
        | .ok x3 => s.emit (mk x0 x1 x2 x3) s.cc

/-- `color r g b` (R84): the command carries the values verbatim and `cc` keeps their low bytes. -/
def execColor (r g b : Operand) (s : State) : Result :=
  match s.val r with
  | .error k => s.raise .color k
  | .ok xr =>
    match s.val g with
    | .error k => s.raise .color k
    | .ok xg =>
      match s.val b with
      | .error k => s.raise .color k
      | .ok xb => s.emit (.setColor xr xg xb) ⟨lowByte xr, lowByte xg, lowByte xb⟩

/-- `point x y` (R85). -/
def execPoint (x y : Operand) (s : State) : Result := s.draw2 .point x y .point

/-- `line x1 y1 x2 y2` (R86). -/
def execLine (x1 y1 x2 y2 : Operand) (s : State) : Result := s.draw4 .line x1 y1 x2 y2 .line

/-- `rect x y w h` (R87). -/
def execRect (x y w h : Operand) (s : State) : Result := s.draw4 .rect x y w h .rect

end Sys2Proof.Machine
end

