-- ==== Sys2Proof/Machine/Move.lean ====
section
/-! DEFINITION. Data movement (spec 40_data_move.md). -/

namespace Sys2Proof.Machine

open Sys2Proof

/-- `mov d s` (R67). -/
def execMov (d : Word) (a : Operand) (s : State) : Result := s.compute1 .mov d a id

end Sys2Proof.Machine
end

