-- ==== Sys2Proof/Machine/Dispatch.lean ====
section
/-! DEFINITION. The meaning of each instruction, one arm per constructor of Instr (spec 30_encoding.md R51). -/

namespace Sys2Proof.Machine

open Sys2Proof

def exec (i : Instr) (s : State) : Host.Outcome State Fault Refusal :=
  match i with
  | .mov d a => Sys2Proof.Machine.execMov d a s
  | .add d a b => Sys2Proof.Machine.execAdd d a b s
  | .sub d a b => Sys2Proof.Machine.execSub d a b s
  | .mul d a b => Sys2Proof.Machine.execMul d a b s
  | .div d a b => Sys2Proof.Machine.execDiv d a b s
  | .mod d a b => Sys2Proof.Machine.execMod d a b s
  | .less d a b => Sys2Proof.Machine.execLess d a b s
  | .equal d a b => Sys2Proof.Machine.execEqual d a b s
  | .not d a => Sys2Proof.Machine.execNot d a s
  | .jmp t c => Sys2Proof.Machine.execJmp t c s
  | .color r g b => Sys2Proof.Machine.execColor r g b s
  | .point x y => Sys2Proof.Machine.execPoint x y s
  | .line x1 y1 x2 y2 => Sys2Proof.Machine.execLine x1 y1 x2 y2 s
  | .rect x y w h => Sys2Proof.Machine.execRect x y w h s

end Sys2Proof.Machine
end

