-- ==== Sys2Proof/Machine/RunControl.lean ====
section
/-! DEFINITION. The end of a run, construction, and the host's transactions (spec 45_run_control.md R89 to R97;
70_reset_and_hazards.md R114 to R118). -/

namespace Sys2Proof.Machine

open Sys2Proof

/-- Whether a run is in progress: the phases in which the engine steps by itself (R89, R93). -/
def State.running (s : State) : Bool :=
  match s.phase with
  | .idle => false
  | .runStart => true
  | .ready => false
  | .runTick => true

/-- `run_ended()` (R95). -/
def State.runEnded (s : State) : Bool :=
  decide (s.params.progLen ≤ s.pc) || (decide (s.phase = .runStart) && decide (s.pc = s.params.tickPc))

/-- A normal end of run (R93, R95): `pc`, `M`, `cc` and `dq` stay. -/
def State.endRun (s : State) : State := { s with phase := .ready, res := .success }

/-- The engine state of 10_state.md R26 put over `s` (R114): the parameters and the host's side stay. -/
def State.resetEngine (s : State) : State :=
  { s with mem := s.params.memInit, pc := 0, phase := .idle, cc := .black, dq := [], res := .cleared }

/-- A newly constructed instance (R30, R118) whose host will act by `turns`. -/
def State.construct (p : Params) (turns : List Turn) : State :=
  State.resetEngine { State.reset with params := p, schedule := turns }

/-- `run_start` (R91). -/
def State.runStart (s : State) : State :=
  if s.params.startValid then { s with res := .cleared, pc := s.params.startPc, phase := .runStart }
  else { s with res := .success, phase := .ready }

/-- `run_tick` (R92). -/
def State.runTick (s : State) : State :=
  { s with dq := [], res := .cleared, pc := s.params.tickPc, phase := .runTick }

/-- What the host is answered. -/
def State.reply (s : State) (r : Reply) : State := { s with replies := s.replies ++ [r] }

/-- The phases that enable each transaction (R89). -/
def Transaction.enabled : Transaction → Phase → Bool
  | .reset, _ => true
  | .runStart, p => decide (p = .idle)
  | .runTick, p => decide (p = .ready)
  | .hostRead _, p => decide (p = .idle ∨ p = .ready)
  | .hostWrite _ _, p => decide (p = .idle ∨ p = .ready)
  | .readResult, p => decide (p = .idle ∨ p = .ready)
  | .readDraw, p => decide (p = .idle ∨ p = .ready)

/-- `host_read(a)` (R96): a failure is reported to the host and changes nothing of the engine. -/
def State.hostRead (s : State) (a : Word) : State :=
  match s.memRead a with
  | .ok v => s.reply (.value v)
  | .error _ => s.reply .outOfBounds

/-- `host_write(a, v)` (R96). -/
def State.hostWrite (s : State) (a v : Word) : State :=
  match s.memWrite a v with
  | .ok t => t.reply .done
  | .error _ => s.reply .outOfBounds

/-- The effect of an enabled transaction (R89). -/
def State.perform (s : State) : Transaction → State
  | .reset => s.resetEngine.reply .done
  | .runStart => s.runStart.reply .done
  | .runTick => s.runTick.reply .done
  | .hostRead a => s.hostRead a
  | .hostWrite a v => s.hostWrite a v
  | .readResult => s.reply (.result s.res)
  | .readDraw => s.reply (.draw s.dq)

/-- The host issues a transaction: one its phase does not enable has no move (R90). -/
def State.issue (s : State) (t : Transaction) : Result :=
  if t.enabled s.phase then .next (s.perform t) else .refused .transactionNotEnabled

end Sys2Proof.Machine
end

