-- ==== Sys2Proof/Machine/Engine.lean ====
section
/-! DEFINITION. One move of the engine, one turn of the schedule, and the placing of an instruction where the engine fetches
next (spec 45_run_control.md R93 to R95; 60_exceptions.md R102, R113). -/

namespace Sys2Proof.Machine

open Sys2Proof

/-- The word `w` fetched and executed, or found ill-formed (R93, R102). -/
def State.runWord (s : State) (w : InstrWord) : Result :=
  match decode w with
  | .error _ => .next (s.takeFault .illegalInstruction (opcodeField w))
  | .ok i => exec i s

/-- One move of the engine: the step of R93 while a run is in progress; between runs all state is kept (R113). -/
def State.engineMove (s : State) : Result :=
  if s.running then
    if s.runEnded then .next s.endRun else s.runWord s.fetch
  else .next s

/-- The state with its schedule replaced. -/
def State.withSchedule (s : State) (l : List Turn) : State := { s with schedule := l }

/-- One turn: the engine's when none is scheduled, else the scheduled one (assumption 6). -/
def State.takeTurn (s : State) : Result :=
  match s.schedule with
  | [] => s.engineMove
  | .engine :: rest => (s.withSchedule rest).engineMove
  | .await :: rest => if s.running then s.engineMove else .next (s.withSchedule rest)
  | .issue t :: rest => (s.withSchedule rest).issue t

/-- The instruction store with `w` at index `pc`; indices between its old end and `pc` hold the all-zero word. -/
def placeWord (imem : List InstrWord) (pc : Nat) (w : InstrWord) : List InstrWord :=
  if pc < imem.length then imem.set pc w else imem ++ List.replicate (pc - imem.length) 0 ++ [w]

/-- The phase in which the next engine move fetches: the run in progress goes on unless it would end at `pc`. -/
def State.fetchingPhase (s : State) : Phase :=
  if s.phase = .runStart ∧ s.pc ≠ s.params.tickPc then .runStart else .runTick

/-- `s` with the word `w` where the engine fetches next, and the engine's turn first. -/
def State.placeInstr (s : State) (w : InstrWord) : State :=
  { s with
    params := { s.params with imem := placeWord s.params.imem s.pc w }
    phase := s.fetchingPhase
    schedule := .engine :: s.schedule }

end Sys2Proof.Machine
end

