-- ==== Sys2Proof/Machine/Step.lean ====
section
/-! DEFINITION. The step of the whole machine (spec 00_scope.md R5; 45_run_control.md R89, R93). -/

namespace Sys2Proof.Machine

open Sys2Proof

/-- One step: the turn that the state says is next. -/
def step (s : State) : Host.Outcome State Fault Refusal := s.takeTurn

/-- `s` with the instruction whose bits are `w` (the bits above `nbits` zero) stored where `step` fetches its next
instruction (assumption 9). -/
def State.withFetchWord (s : State) (nbits w : Nat) : State :=
  s.placeInstr (BitVec.ofNat 144 (w % 2 ^ nbits))

end Sys2Proof.Machine
end

