-- ==== Sys2Proof/Machine/Loader.lean ====
section
/-! DEFINITION. The assembler text format and its load-time checks (spec 30_encoding.md R61 to R66; 92_eei_decisions.md D25).
The Loader is no part of the machine (00_scope.md R4) and the step never calls it: these functions say which Program a text
stands for, from which an instance is constructed (70_reset_and_hazards.md R118). -/

namespace Sys2Proof.Machine

open Sys2Proof

/-- A token of the text. -/
abbrev Token := List Char

/-- The load-time errors of R65, and the rejections of R62, R64 and R66 to which the spec gives no name (assumption 23).
`AmbiguousStartFallthrough` is never raised (R65). -/
inductive LoadError
  | unknownOpcode
  | arityMismatch
  | operandKindMismatch
  | missingTickLabel
  | unresolvedLabel
  | ambiguousStartFallthrough
  /-- A literal or an address that does not fit its field (R62), or a negative jump target (R64). -/
  | literalOutOfRange
  /-- A `$` that no decimal number follows. -/
  | malformedOperand
  /-- A label declared twice (R63, R66). -/
  | duplicateLabel
  /-- A label whose name D25 does not allow, or one that shares its line with another token (R63). -/
  | malformedLabel
  deriving DecidableEq, Repr

/-- The pieces of a list between the elements that satisfy `p`. -/
def splitBy (p : Char → Bool) : List Char → List (List Char)
  | [] => [[]]
  | c :: cs =>
    if p c then [] :: splitBy p cs
    else match splitBy p cs with
      | [] => [[c]]
      | l :: ls => (c :: l) :: ls

/-- The white space that separates tokens within a line (R61). -/
def isBlank (c : Char) : Bool := c == ' ' || c == '\t' || c == '\r'

/-- The tokens of each line (R61). -/
def tokenLines (text : List Char) : List (List Token) :=
  (splitBy (· == '\n') text).map fun l => (splitBy isBlank l).filter fun t => !t.isEmpty

/-- A decimal digit. -/
def isDigit (c : Char) : Bool := decide (48 ≤ c.toNat) && decide (c.toNat ≤ 57)

/-- A decimal number without sign: one digit or more, nothing else. -/
def number? (t : Token) : Option Nat :=
  if !t.isEmpty && t.all isDigit then some (t.foldl (fun n c => 10 * n + (c.toNat - 48)) 0) else none

/-- What an operand token denotes (R62, R64). -/
inductive OperandToken
  | address (n : Nat)
  | immediate (z : Int)
  | name (t : Token)
  deriving DecidableEq, Repr

/-- Reading an operand token (R62): `$` and a number, a number with an optional minus sign, or a name. -/
def readOperand (t : Token) : Except LoadError OperandToken :=
  match t with
  | '$' :: ds =>
    match number? ds with
    | none => .error .malformedOperand
    | some n => if n < indexBound then .ok (.address n) else .error .literalOutOfRange
  | '-' :: ds =>
    match number? ds with
    | none => .ok (.name t)
    | some n => if n ≤ indexBound then .ok (.immediate (-(n : Int))) else .error .literalOutOfRange
  | _ =>
    match number? t with
    | none => .ok (.name t)
    | some n => if n < indexBound then .ok (.immediate (n : Int)) else .error .literalOutOfRange

/-- A destination token: an address (R51). -/
def destToken (t : Token) : Except LoadError Word :=
  match readOperand t with
  | .error e => .error e
  | .ok (.address n) => .ok (BitVec.ofNat 32 n)
  | .ok (.immediate _) => .error .operandKindMismatch
  | .ok (.name _) => .error .operandKindMismatch

/-- A source token: an immediate or an address (R51). -/
def sourceToken (t : Token) : Except LoadError Operand :=
  match readOperand t with
  | .error e => .error e
  | .ok (.address n) => .ok (.addr (BitVec.ofNat 32 n))
  | .ok (.immediate z) => .ok (.imm (BitVec.ofInt 32 z))
  | .ok (.name _) => .error .operandKindMismatch

/-- The label table: names and instruction indices (R63). -/
abbrev Labels := List (Token × Nat)

/-- A jump target's field: an index, which R62's bound keeps below 2^31 (R54, R64). -/
def targetField (n : Nat) : Except LoadError Word :=
  if n < indexBound then .ok (BitVec.ofNat 32 n) else .error .literalOutOfRange

/-- A jump target token (R64): a number is an index, and a token that R62 reads neither as a number nor as an address is a
label. DESIGN CHOICE (assumption 26): a token that begins with `$` is no label, since no label name may begin with `$` (D25);
an address is reported as `operandKindMismatch`, which R64's words alone would make an unresolved label, and a `$` that no
number follows as `malformedOperand`. -/
def targetToken (labels : Labels) (t : Token) : Except LoadError Word :=
  match readOperand t with
  | .error e => .error e
  | .ok (.address _) => .error .operandKindMismatch
  | .ok (.immediate z) => if z < 0 ∨ t.head? = some '-' then .error .literalOutOfRange else targetField z.toNat
  | .ok (.name n) =>
    match labels.lookup n with
    | none => .error .unresolvedLabel
    | some i => targetField i

/-- The mnemonics (R61: lower case, case-sensitive by D25). -/
def mnemonics : List (Token × Opcode) := [
  (['m', 'o', 'v'], .mov), (['a', 'd', 'd'], .add), (['s', 'u', 'b'], .sub), (['m', 'u', 'l'], .mul),
  (['d', 'i', 'v'], .div), (['m', 'o', 'd'], .mod), (['l', 'e', 's', 's'], .less)] ++ [
  (['e', 'q', 'u', 'a', 'l'], .equal), (['n', 'o', 't'], .not), (['j', 'm', 'p'], .jmp),
  (['c', 'o', 'l', 'o', 'r'], .color), (['p', 'o', 'i', 'n', 't'], .point), (['l', 'i', 'n', 'e'], .line),
  (['r', 'e', 'c', 't'], .rect)]

/-- `d s` -/
def lineDS (mk : Word → Operand → Instr) : List Token → Except LoadError Instr
  | [d, s] => do
    let d ← destToken d
    let s ← sourceToken s
    return mk d s
  | _ => .error .arityMismatch

/-- `d a b` -/
def lineDSS (mk : Word → Operand → Operand → Instr) : List Token → Except LoadError Instr
  | [d, a, b] => do
    let d ← destToken d
    let a ← sourceToken a
    let b ← sourceToken b
    return mk d a b
  | _ => .error .arityMismatch

/-- `t c` -/
def lineTS (labels : Labels) (mk : Word → Operand → Instr) : List Token → Except LoadError Instr
  | [t, c] => do
    let t ← targetToken labels t
    let c ← sourceToken c
    return mk t c
  | _ => .error .arityMismatch

/-- `x y` -/
def lineSS (mk : Operand → Operand → Instr) : List Token → Except LoadError Instr
  | [x, y] => do
    let x ← sourceToken x
    let y ← sourceToken y
    return mk x y
  | _ => .error .arityMismatch

/-- `r g b` -/
def lineSSS (mk : Operand → Operand → Operand → Instr) : List Token → Except LoadError Instr
  | [r, g, b] => do
    let r ← sourceToken r
    let g ← sourceToken g
    let b ← sourceToken b
    return mk r g b
  | _ => .error .arityMismatch

/-- `x y w h` -/
def lineSSSS (mk : Operand → Operand → Operand → Operand → Instr) : List Token → Except LoadError Instr
  | [x, y, w, h] => do
    let x ← sourceToken x
    let y ← sourceToken y
    let w ← sourceToken w
    let h ← sourceToken h
    return mk x y w h
  | _ => .error .arityMismatch

/-- The instruction of a line: arity first, then kinds left to right (R51, R65). -/
def lineInstr (labels : Labels) (o : Opcode) (ops : List Token) : Except LoadError Instr :=
  match o with
  | .mov => lineDS .mov ops
  | .add => lineDSS .add ops
  | .sub => lineDSS .sub ops
  | .mul => lineDSS .mul ops
  | .div => lineDSS .div ops
  | .mod => lineDSS .mod ops
  | .less => lineDSS .less ops
  | .equal => lineDSS .equal ops
  | .not => lineDS .not ops
  | .jmp => lineTS labels .jmp ops
  | .color => lineSSS .color ops
  | .point => lineSS .point ops
  | .line => lineSSSS .line ops
  | .rect => lineSSSS .rect ops

/-- A line that carries something (R61). -/
inductive Line
  | label (name : Token)
  | instr (o : Opcode) (ops : List Token)
  deriving DecidableEq, Repr

/-- Whether D25 allows a label name. -/
def labelNameOk (t : Token) : Bool :=
  match t with
  | [] => false
  | c :: _ => !(isDigit c || c == '-' || c == '+' || c == '$') && t.all (· != ':')

/-- Reading a line: nothing, a label on its own line, or an instruction (R61, R63). -/
def readLine : List Token → Except LoadError (Option Line)
  | [] => .ok none
  | t :: ops =>
    if t.getLast? = some ':' then
      (if ops.isEmpty && labelNameOk t.dropLast then .ok (some (.label t.dropLast)) else .error .malformedLabel)
    else match mnemonics.lookup t with
      | none => .error .unknownOpcode
      | some o => .ok (some (.instr o ops))

/-- Reading every line. -/
def readLines : List (List Token) → Except LoadError (List Line)
  | [] => .ok []
  | l :: ls =>
    match readLine l with
    | .error e => .error e
    | .ok x =>
      match readLines ls with
      | .error e => .error e
      | .ok xs => .ok (x.toList ++ xs)

/-- The first pass (R63): each label's value is the number of instruction lines before it, counted from `n`. -/
def collectLabels : Nat → List Line → Except LoadError Labels
  | _, [] => .ok []
  | n, .label t :: ls =>
    match collectLabels n ls with
    | .error e => .error e
    | .ok m => if (m.lookup t).isSome then .error .duplicateLabel else .ok ((t, n) :: m)
  | n, .instr _ _ :: ls => collectLabels (n + 1) ls

/-- The second pass (R63): the instructions in the order of their lines. -/
def assemble (labels : Labels) : List Line → Except LoadError (List Instr)
  | [] => .ok []
  | .label _ :: ls => assemble labels ls
  | .instr o ops :: ls =>
    match lineInstr labels o ops with
    | .error e => .error e
    | .ok i =>
      match assemble labels ls with
      | .error e => .error e
      | .ok is => .ok (i :: is)

/-- The program of the lines (R63, R65): `tick` is required, `start` optional. -/
def programOf (ls : List Line) : Except LoadError Program :=
  match collectLabels 0 ls with
  | .error e => .error e
  | .ok labels =>
    match assemble labels ls with
    | .error e => .error e
    | .ok is =>
      match labels.lookup ['t', 'i', 'c', 'k'] with
      | none => .error .missingTickLabel
      | some tick => .ok ⟨is.map encode, tick, labels.lookup ['s', 't', 'a', 'r', 't']⟩

/-- `load` (R61 to R65): the Program a text stands for, or the first error met. -/
def load (text : List Char) : Except LoadError Program :=
  match readLines (tokenLines text) with
  | .error e => .error e
  | .ok ls => programOf ls

end Sys2Proof.Machine
end

