-- ==== Sys2Proof/Safety.lean ====
section
/-! DEFINITION. The terms in which claims about the machine are stated: values and bounds as the spec writes them, the first
fault of an instruction, frames, and the invariant of every run. Nothing here is used by the step. -/

namespace Sys2Proof

/-- The source operands, left to right (spec 30_encoding.md R51). -/
def Instr.sources : Instr → List Operand
  | .mov _ a => [a]
  | .add _ a b => [a, b]
  | .sub _ a b => [a, b]
  | .mul _ a b => [a, b]
  | .div _ a b => [a, b]
  | .mod _ a b => [a, b]
  | .less _ a b => [a, b]
  | .equal _ a b => [a, b]
  | .not _ a => [a]
  | .jmp _ c => [c]
  | .color r g b => [r, g, b]
  | .point x y => [x, y]
  | .line x1 y1 x2 y2 => [x1, y1, x2, y2]
  | .rect x y w h => [x, y, w, h]

/-- The destination slot number, of the nine computing instructions (R51). -/
def Instr.dest : Instr → Option Word
  | .mov d _ => some d
  | .add d _ _ => some d
  | .sub d _ _ => some d
  | .mul d _ _ => some d
  | .div d _ _ => some d
  | .mod d _ _ => some d
  | .less d _ _ => some d
  | .equal d _ _ => some d
  | .not d _ => some d
  | .jmp _ _ => none
  | .color _ _ _ => none
  | .point _ _ => none
  | .line _ _ _ _ => none
  | .rect _ _ _ _ => none

/-- The divisor operand of `div` and `mod` (R51). -/
def Instr.divisor : Instr → Option Operand
  | .mov _ _ => none
  | .add _ _ _ => none
  | .sub _ _ _ => none
  | .mul _ _ _ => none
  | .div _ _ b => some b
  | .mod _ _ b => some b
  | .less _ _ _ => none
  | .equal _ _ _ => none
  | .not _ _ => none
  | .jmp _ _ => none
  | .color _ _ _ => none
  | .point _ _ => none
  | .line _ _ _ _ => none
  | .rect _ _ _ _ => none

/-- Whether the instruction appends a draw command (44_draw_io.md R83). -/
def Instr.draws : Instr → Bool
  | .mov _ _ => false
  | .add _ _ _ => false
  | .sub _ _ _ => false
  | .mul _ _ _ => false
  | .div _ _ _ => false
  | .mod _ _ _ => false
  | .less _ _ _ => false
  | .equal _ _ _ => false
  | .not _ _ => false
  | .jmp _ _ => false
  | .color _ _ _ => true
  | .point _ _ => true
  | .line _ _ _ _ => true
  | .rect _ _ _ _ => true

/-- `0 ≤ a < n`, the address field read as a signed integer (20_memory.md R32). -/
abbrev addrBelow (n : Nat) (a : Word) : Prop := 0 ≤ a.toInt ∧ a.toInt < (n : Int)

/-- A source operand that can be evaluated with `n` slots: an immediate, or an address below `n`. -/
def Operand.inRange (n : Nat) : Operand → Bool
  | .imm _ => true
  | .addr a => decide (addrBelow n a)

/-- Every address operand of the instruction is below `n`. -/
def Instr.addrsBelow (n : Nat) (i : Instr) : Prop :=
  (∀ a ∈ i.sources, a.inRange n = true) ∧ (∀ d, i.dest = some d → addrBelow n d)

/-- `to_i32` as 00_scope.md R7 writes it. -/
def wrap32 (z : Int) : Int := (z + 2 ^ 31) % 2 ^ 32 - 2 ^ 31

/-- A source slot's kind is IMM or ADDR (R55; the failing words are class 3 of R59). -/
def sourceSlotOk (k : BitVec 2) : Prop := k = 1 ∨ k = 2

/-- An unused slot is all zero (R55; the failing words are classes 4 and 5 of R59). -/
def unusedSlotOk (k : BitVec 2) (v : Word) : Prop := k = 0 ∧ v = 0

/-- The slots from slot `n` on (2, 3 or 4) are unused and the reserved bits are zero. -/
def restUnused (w : InstrWord) (n : Nat) : Prop :=
  w.extractLsb' 128 4 = 0 ∧
  (n ≤ 2 → unusedSlotOk (w.extractLsb' 134 2) (w.extractLsb' 32 32)) ∧
  (n ≤ 3 → unusedSlotOk (w.extractLsb' 132 2) (w.extractLsb' 0 32))

/-- The kind field of slot `n`. -/
def kindBits (w : InstrWord) (n : Nat) : BitVec 2 := w.extractLsb' (138 - 2 * n) 2

/-- A word that spells an instruction, by the table of R51 and the layout of R48. -/
def wellFormedWord (w : InstrWord) : Prop :=
  let op := (w.extractLsb' 140 4).toNat
  let dest := kindBits w 0 = 2
  let target := kindBits w 0 = 3 ∧ w.getLsbD 127 = false
  let source (n : Nat) := sourceSlotOk (kindBits w n)
  ((op = 0 ∨ op = 8) ∧ dest ∧ source 1 ∧ restUnused w 2) ∨
  ((1 ≤ op ∧ op ≤ 7) ∧ dest ∧ source 1 ∧ source 2 ∧ restUnused w 3) ∨
  (op = 9 ∧ target ∧ source 1 ∧ restUnused w 2) ∨
  (op = 10 ∧ source 0 ∧ source 1 ∧ source 2 ∧ restUnused w 3) ∨
  (op = 11 ∧ source 0 ∧ source 1 ∧ restUnused w 2) ∨
  ((op = 12 ∨ op = 13) ∧ source 0 ∧ source 1 ∧ source 2 ∧ source 3 ∧ restUnused w 4)

namespace Machine

/-- A data address that exists in this instance (20_memory.md R32). -/
abbrev State.validAddr (s : State) (a : Word) : Prop := addrBelow s.params.memSize a

/-- A source operand whose evaluation does not raise (00_scope.md R9, R10). -/
abbrev State.readable (s : State) (a : Operand) : Prop := a.inRange s.params.memSize = true

/-- The contents of the slot an address field names. -/
def State.slot (s : State) (a : Word) : Word := s.mem.read a.toInt.toNat

/-- The value of a source operand (00_scope.md R10). -/
def State.valueOf (s : State) : Operand → Word
  | .imm v => v
  | .addr a => s.slot a

/-- The fault that 60_exceptions.md R106 says an instruction reports: a source out of bounds, then a zero divisor, then the
destination out of bounds, the first that applies. -/
def firstFault (i : Instr) (s : State) : Option FaultKind :=
  if i.sources.any (fun a => !a.inRange s.params.memSize) then some .outOfBounds
  else if i.divisor.any (fun b => decide (s.valueOf b = 0)) then some .divisionByZero
  else if i.dest.any (fun d => !decide (s.validAddr d)) then some .outOfBounds
  else none

/-- Frame of an instruction that stores to slot `d` and goes on: only that slot and `pc` (41_arithmetic.md R69). -/
def StoresOnly (s t : State) (d r : Word) : Prop :=
  t = { s with pc := s.pc + 1, mem := t.mem } ∧ t.slot d = r ∧
  ∀ a : Nat, a ≠ d.toInt.toNat → t.mem.read a = s.mem.read a

/-- The fault entry as 60_exceptions.md R104 writes it: the report, the phase, and nothing else. -/
def State.faulted (s : State) (k : FaultKind) (op : BitVec 4) : State :=
  { s with res := { status := .err, cause := some k, fpc := s.pc, fop := op }, phase := .ready }

/-- The draw queue takes one more command (10_state.md R22; `DQ_DEPTH`, 00_scope.md R6). -/
def State.QueueHasRoom (s : State) : Prop := ∀ n, s.params.dqDepth = some n → s.dq.length < n

/-- Frame of an instruction that appends `c` and goes on: only the queue's tail and `pc` (44_draw_io.md R83). -/
def AppendsOnly (s t : State) (c : DrawCmd) : Prop := t = { s with pc := s.pc + 1, dq := s.dq ++ [c] }

/-- The host issues `t` at this state's next move. -/
def Issues (s : State) (t : Transaction) : Prop := s.schedule.head? = some (.issue t)

/-- The host's side after a transaction was answered: its turn used up and the answer appended (assumption 6). -/
def State.answered (s : State) (r : Reply) : State :=
  { s with schedule := s.schedule.tail, replies := s.replies ++ [r] }

/-- `res` holds a report only when the run ended in a fault (10_state.md R23). -/
def RunResult.Consistent (r : RunResult) (progLen : Nat) : Prop :=
  if r.status = .err then r.cause ≠ none ∧ r.fpc < progLen else r.cause = none ∧ r.fpc = 0 ∧ r.fop = 0

/-- The legal construction parameters (00_scope.md R6; 10_state.md R20). -/
structure ParamsOk (p : Params) : Prop where
  memSize_min : 32 ≤ p.memSize
  memSize_max : p.memSize < 2 ^ 31
  progLen_max : p.progLen < 2 ^ 31
  tick_le : p.tickPc ≤ p.progLen
  start_le : p.startValid = true → p.startPc ≤ p.progLen
  init_wf : Memory.wf p.memInit = true
  init_below : Memory.below p.memSize p.memInit = true

/-- What each phase says of the other state: nothing has run in `IDLE`; no result stands during a run; after a run there is
one, and a fault leaves `pc` at the faulting instruction (10_state.md R17, R23, R26; 60_exceptions.md R104). -/
def PhaseOk (s : State) : Prop :=
  match s.phase with
  | .idle => s.res = .cleared ∧ s.pc = 0 ∧ s.cc = .black ∧ s.dq = []
  | .runStart => s.res = .cleared ∧ s.params.startValid = true
  | .ready => s.res.status ≠ .none ∧ (s.res.status = .err → s.res.fpc = s.pc)
  | .runTick => s.res = .cleared

/-- The invariant of every run of an instance with legal parameters. -/
structure Inv (s : State) : Prop where
  params : ParamsOk s.params
  mem_wf : s.mem.wf = true
  mem_below : s.mem.below s.params.memSize = true
  pc_max : s.pc < 2 ^ 31
  queue : ∀ n ∈ s.params.dqDepth, s.dq.length ≤ n
  res : s.res.Consistent s.params.progLen
  phase : PhaseOk s

/-- Whose move is next: the engine's. -/
def EngineTurn (s : State) : Prop :=
  s.schedule.head? = none ∨ s.schedule.head? = some .engine ∨ (s.schedule.head? = some .await ∧ s.running = true)

/-- The engine executes the instruction `i` at this state's next move. -/
def AboutToRun (s : State) (i : Instr) : Prop :=
  EngineTurn s ∧ (s.phase = .runTick ∨ (s.phase = .runStart ∧ s.pc ≠ s.params.tickPc)) ∧
  ∃ w, s.params.imem[s.pc]? = some w ∧ decode w = .ok i

/-- The state the engine's move starts from: the engine's turn, if it was scheduled, is used up. -/
def State.turnTaken (s : State) : State :=
  if s.schedule.head? = some .engine then { s with schedule := s.schedule.tail } else s

end Machine

end Sys2Proof
end

