-- ==== Sys2Proof/Certificates/Slice0/Obligations.lean ====
section
/-! DEFINITION. The statements about the model, for the provers. Each docstring names the rule of spec/ it formalises, or the
spec's decision or the model's choice it rests on. -/

open Sys2Proof Sys2Proof.Machine

/-! ### Encoding and decoding (30_encoding.md; the packing is the spec's decisions D1, D2, D3) -/

/-- Decoding the word of a well-formed instruction gives it back, every operand at every value (section 4, law T2). -/
def Obligations.DecodeOfEncode : Prop :=
  ∀ i : Instr, i.wf = true → decode (encode i) = .ok i

/-- Every accepted word is the word of the instruction it decodes to, and that instruction is well formed (section 4, T1). -/
def Obligations.EncodeOfDecode : Prop :=
  ∀ (w : InstrWord) (i : Instr), decode w = .ok i → i.wf = true ∧ encode i = w

/-- The decoder accepts exactly the words that the layout, the operand shapes and the six classes of ill-formed words allow
(sections 2 and 5). -/
def Obligations.DecodesExactlyTheWellFormedWords : Prop :=
  ∀ w : InstrWord, (∃ i, decode w = .ok i) ↔ wellFormedWord w

/-- A word decodes to an instruction with a row's opcode exactly when it matches the row's mask and its source slots have
the kinds IMM or ADDR (section 4, the opcode map). -/
def Obligations.OpcodeMapRowsDecide : Prop :=
  ∀ (w : InstrWord), ∀ r ∈ opcodeMap,
    ((∃ i, decode w = .ok i ∧ i.opcode = r.op) ↔
      (w &&& r.mask = r.bits ∧ ∀ n ∈ r.sources, sourceSlotOk (kindBits w n)))

/-- A word matches at most one row of the opcode map (law T3). -/
def Obligations.OpcodeMapRowsAreDisjoint : Prop :=
  ∀ (w : InstrWord), ∀ r ∈ opcodeMap, ∀ r' ∈ opcodeMap,
    w &&& r.mask = r.bits → w &&& r'.mask = r'.bits → r = r'

/-- Words written out from the spec's encodings decode to the instructions they stand for, one of each family, and the
all-zero word to none (95_test_vectors.md section 2.3, W18). -/
def Obligations.SampleWordsDecode : Prop :=
  decode 0x0A000000000D000000020000000000000000#144 = .ok (.mov 13 (.addr 2)) ∧
  decode 0x49400000000DFFFFFFF90000000200000000#144 = .ok (.div 13 (.imm (-7)) (.imm 2)) ∧
  decode 0x6A40000000140000000D0000000500000000#144 = .ok (.less 20 (.addr 13) (.imm 5)) ∧
  decode 0x9E0000000006000000020000000000000000#144 = .ok (.jmp 6 (.addr 2)) ∧
  decode 0xDA500000000D0000000E0000000800000008#144 =
    .ok (.rect (.addr 13) (.addr 14) (.imm 8) (.imm 8)) ∧
  decode 0x000000000000000000000000000000000000#144 = .error .kindMismatch

/-- A draw command is determined by its 130-bit packing (10_state.md section 7, decision D22). -/
def Obligations.PackedCommandDeterminesCommand : Prop :=
  ∀ c c' : DrawCmd, c.pack = c'.pack → c = c'

/-- The words of a program that a text stands for all spell instructions, so none of them raises IllegalInstruction, and its
entry points are legal (60_exceptions.md on IllegalInstruction, 30_encoding.md section 6; the Loader's function is the
model's, assumption 23). -/
def Obligations.LoadedProgramIsLegal : Prop :=
  ∀ (text : List Char) (p : Program), load text = .ok p →
    (∀ w ∈ p.words, wellFormedWord w) ∧ p.tick ≤ p.words.length ∧ ∀ n, p.start = some n → n ≤ p.words.length

/-! ### Reset, construction and the invariant -/

/-- The state after reset: the engine's fields as 10_state.md section 6 lists them. The instance's parameters are the
model's choice (assumptions 2, 3, 4, 5), pc and cc the spec's decisions D24 and D15. -/
def Obligations.ResetStateValues : Prop :=
  State.reset.phase = .idle ∧ State.reset.dq = [] ∧ State.reset.res = { status := .none, cause := none, fpc := 0, fop := 0 } ∧
  State.reset.pc = 0 ∧ State.reset.cc = { r := 0, g := 0, b := 0 } ∧ (∀ a, State.reset.mem.read a = 0) ∧
  State.reset.params.memSize = 32 ∧ State.reset.params.divOverflowResult.toInt = -2147483648 ∧
  State.reset.params.dqDepth = none

/-- The invariant holds after reset (of the model's instance, assumption 3). -/
def Obligations.ResetMeetsInv : Prop := Inv State.reset

/-- An instance constructed with legal parameters meets the invariant, and so do the parameters of every program whose entry
points lie in it, with MEM_SIZE = max(32, requested) (70_reset_and_hazards.md section 1; decisions D20, D26). -/
def Obligations.ConstructedInstanceMeetsInv : Prop :=
  (∀ (p : Params) (turns : List Turn), ParamsOk p → Inv (State.construct p turns)) ∧
  (∀ (p : Program) (n : Nat), p.words.length < 2 ^ 31 → p.tick ≤ p.words.length →
    (∀ k, p.start = some k → k ≤ p.words.length) → n < 2 ^ 31 →
    ParamsOk (Params.ofProgram p n) ∧ (Params.ofProgram p n).memSize = max 32 n)

/-- Every step keeps the invariant: Memory canonical and within MEM_SIZE, pc an instruction index below 2^31, the queue within
its capacity, the report consistent, and each phase's own facts. -/
def Obligations.StepKeepsInv : Prop :=
  ∀ s t : State, Inv s → step s = .next t → Inv t

/-! ### The step and the end of a run (45_run_control.md) -/

/-- When the word at pc decodes to `i` and the run does not end, the step is exec of `i` on the same state, its turn of the
schedule used up (45_run_control.md section 3; the schedule is the model's, assumption 6). -/
def Obligations.StepRunsTheDecodedInstruction : Prop :=
  ∀ (s : State) (i : Instr), AboutToRun s i → step s = exec i s.turnTaken

/-- A step that fetches a word that spells no instruction takes IllegalInstruction: the report holds the index and the raw
opcode field, the run is over, and nothing else changes (60_exceptions.md sections 1 and 2, decision D6). -/
def Obligations.IllFormedWordTakesIllegalInstruction : Prop :=
  ∀ (s : State) (w : InstrWord), EngineTurn s →
    (s.phase = .runTick ∨ (s.phase = .runStart ∧ s.pc ≠ s.params.tickPc)) →
    s.params.imem[s.pc]? = some w → ¬ wellFormedWord w →
    step s = .next (s.turnTaken.faulted .illegalInstruction (w.extractLsb' 140 4))

/-- A run ends normally when pc has reached or passed PROG_LEN, and a start run also when pc is TICK_PC (decision D11): the
phase is READY, the result OK, and pc, M, cc and dq stay (45_run_control.md section 4). -/
def Obligations.RunEndsNormally : Prop :=
  ∀ s : State, EngineTurn s → s.running = true →
    (s.params.imem.length ≤ s.pc ∨ (s.phase = .runStart ∧ s.pc = s.params.tickPc)) →
    step s = .next { s.turnTaken with phase := .ready, res := { status := .ok, cause := none, fpc := 0, fop := 0 } }

/-- Between runs the engine keeps all its state (60_exceptions.md section 7; the turn is the model's, assumption 8). -/
def Obligations.IdleEngineKeepsState : Prop :=
  ∀ s : State, EngineTurn s → s.phase = .idle ∨ s.phase = .ready → step s = .next s.turnTaken

/-- With an unbounded draw queue the engine always has exactly the one move its step gives: it never stops
(95_test_vectors.md X1; 45_run_control.md section 3). -/
def Obligations.EngineNeverStops : Prop :=
  ∀ s : State, EngineTurn s → s.params.dqDepth = none → ∃ t, step s = .next t

/-- A jump to its own index on a true immediate repeats for ever: after any number of steps the machine is where it was
(43_control_flow.md and 45_run_control.md on runs that never end; 93_implementation_defined.md U12). -/
def Obligations.SelfJumpRunsForever : Prop :=
  ∀ (s : State) (t v : Word), s.schedule = [] → AboutToRun s (.jmp t (.imm v)) → t.toNat = s.pc → v ≠ 0 →
    ∀ k : Nat, core.run k s = .next s

/-! ### The host's transactions (45_run_control.md). That they come from State's schedule, and that their answers stand in
`replies`, is the model's choice (assumption 6). -/

/-- R91: `run_start`, enabled in IDLE only. With a start label pc is START_PC and the start run begins; without one the engine
is READY with result OK. M, cc and dq are not touched. It is the only way out of IDLE, and only reset leads back. -/
def Obligations.RunStartCommand : Prop :=
  (∀ s : State, Issues s .runStart →
    (s.phase = .idle → s.params.startValid = true → step s = .next { s.answered .done with
      res := { status := .none, cause := none, fpc := 0, fop := 0 }, pc := s.params.startPc, phase := .runStart }) ∧
    (s.phase = .idle → s.params.startValid = false → step s = .next { s.answered .done with
      res := { status := .ok, cause := none, fpc := 0, fop := 0 }, phase := .ready }) ∧
    (s.phase ≠ .idle → ∀ t, step s ≠ .next t)) ∧
  (∀ s t : State, step s = .next t →
    (s.phase = .idle → t.phase = .idle ∨ Issues s .runStart) ∧ (t.phase = .idle → s.phase = .idle ∨ Issues s .reset))

/-- R92: `run_tick`, enabled in READY only, empties the queue, clears the result, sets pc to TICK_PC and begins the tick run,
whatever the last run's result was. M and cc are not touched. -/
def Obligations.RunTickCommand : Prop :=
  ∀ s : State, Issues s .runTick →
    (s.phase = .ready → step s = .next { s.answered .done with
      dq := [], res := { status := .none, cause := none, fpc := 0, fop := 0 }, pc := s.params.tickPc, phase := .runTick }) ∧
    (s.phase ≠ .ready → ∀ t, step s ≠ .next t)

/-- A transaction that its phase does not enable has no move, and the model stops by name (45_run_control.md sections 1 and 3,
decision D18): it stops in exactly these cases. -/
def Obligations.OutOfPhaseTransactionHasNoMove : Prop :=
  ∀ (s : State) (t : Transaction), Issues s t →
    (step s = .refused .transactionNotEnabled ↔
      (t = .runStart ∧ s.phase ≠ .idle) ∨ (t = .runTick ∧ s.phase ≠ .ready) ∨
      (t ≠ .reset ∧ t ≠ .runStart ∧ t ≠ .runTick ∧ s.running = true))

/-- `reset`, in every phase, puts the engine's state at its reset values and keeps the construction parameters
(70_reset_and_hazards.md section 1, decisions D14, D15, D24, D27). -/
def Obligations.ResetTransaction : Prop :=
  ∀ s : State, Issues s .reset →
    step s = .next { s.answered .done with
      mem := s.params.memInit, pc := 0, phase := .idle, cc := { r := 0, g := 0, b := 0 }, dq := [],
      res := { status := .none, cause := none, fpc := 0, fop := 0 } }

/-- R96: between runs the host reads and writes any slot that exists, and an access out of bounds fails as an operation of the
host's, with no change to the engine's state. During a run neither access is enabled. -/
def Obligations.HostAccess : Prop :=
  ∀ (s : State) (a v : Word), s.mem.wf = true →
    (s.phase = .idle ∨ s.phase = .ready →
      (Issues s (.hostRead a) → s.validAddr a → step s = .next (s.answered (.value (s.slot a)))) ∧
      (Issues s (.hostWrite a v) → s.validAddr a →
        ∃ t, step s = .next t ∧ t = { s.answered .done with mem := t.mem } ∧ t.slot a = v ∧
          ∀ b : Nat, b ≠ a.toInt.toNat → t.mem.read b = s.mem.read b) ∧
      (Issues s (.hostRead a) ∨ Issues s (.hostWrite a v) → ¬ s.validAddr a → step s = .next (s.answered .outOfBounds))) ∧
    (s.running = true → Issues s (.hostRead a) ∨ Issues s (.hostWrite a v) → ∀ t, step s ≠ .next t)

/-- `read_result` answers the result record and `read_draw` the queue's commands in order; neither changes the engine's state
(45_run_control.md section 5). -/
def Obligations.HostReadsResultAndQueue : Prop :=
  ∀ s : State, s.phase = .idle ∨ s.phase = .ready →
    (Issues s .readResult → step s = .next (s.answered (.result s.res))) ∧
    (Issues s .readDraw → step s = .next (s.answered (.draw s.dq)))

/-- Host accesses between two runs take effect in the order issued: a write followed by a read of the same slot answers the
value written (20_memory.md section 5). -/
def Obligations.HostReadsBackItsWrite : Prop :=
  ∀ (s : State) (a v : Word) (l : List Turn), s.mem.wf = true → s.phase = .idle ∨ s.phase = .ready → s.validAddr a →
    s.schedule = .issue (.hostWrite a v) :: .issue (.hostRead a) :: l →
    ∃ t, core.run 2 s = .next t ∧ t.replies = s.replies ++ [.done, .value v] ∧ t.slot a = v ∧ t.schedule = l

/-- Which moves can change each piece of state (10_state.md sections 4 and 7). Memory changes only at an instruction that has a
destination, at reset, and at the host's writes between runs; which slot changes, the statements of the instructions and of
host access say. The colour changes only at `color` and reset; the queue only at draw instructions, `run_tick` and reset; pc
only at instructions, run commands and reset; the phase and the result only at run commands, at reset, and at an engine move
of a run that leaves the engine READY with pc as it was; the parameters never. -/
def Obligations.WritersOfEachPieceOfState : Prop :=
  ∀ s t : State, step s = .next t →
    (t.mem ≠ s.mem → (∃ i, AboutToRun s i ∧ i.dest ≠ none) ∨ Issues s .reset ∨
      (∃ a v, Issues s (.hostWrite a v) ∧ (s.phase = .idle ∨ s.phase = .ready))) ∧
    (t.cc ≠ s.cc → (∃ i, AboutToRun s i ∧ i.opcode = .color) ∨ Issues s .reset) ∧
    (t.dq ≠ s.dq → (∃ i, AboutToRun s i ∧ i.draws = true) ∨ Issues s .runTick ∨ Issues s .reset) ∧
    (t.pc ≠ s.pc → (∃ i, AboutToRun s i) ∨ Issues s .runStart ∨ Issues s .runTick ∨ Issues s .reset) ∧
    (t.phase ≠ s.phase ∨ t.res ≠ s.res → Issues s .runStart ∨ Issues s .runTick ∨ Issues s .reset ∨
      (EngineTurn s ∧ s.running = true ∧ t.phase = .ready ∧ t.pc = s.pc)) ∧
    t.params = s.params

/-! ### Memory and faults -/

/-- R9 and R10: `MemRead`, `MemWrite` and `val`. In bounds a read gives the slot and a write changes that slot only; out of
bounds both raise OutOfBounds, negative addresses included; an immediate is its own value. -/
def Obligations.MemoryPrimitives : Prop :=
  ∀ (s : State) (a v : Word), s.mem.wf = true →
    (0 ≤ a.toInt ∧ a.toInt < s.params.memSize → s.memRead a = .ok (s.slot a) ∧
      ∃ t, s.memWrite a v = .ok t ∧ t = { s with mem := t.mem } ∧ t.memRead a = .ok v ∧
        ∀ b : Nat, b ≠ a.toInt.toNat → t.mem.read b = s.mem.read b) ∧
    (a.toInt < 0 ∨ (s.params.memSize : Int) ≤ a.toInt →
      s.memRead a = .error .outOfBounds ∧ s.memWrite a v = .error .outOfBounds) ∧
    s.val (.imm v) = .ok v ∧ s.val (.addr a) = s.memRead a

/-- An instruction reports the first fault met in the fixed order of 60_exceptions.md section 3 (decision D8), by the fault entry
of its section 2; and when none applies it takes none. -/
def Obligations.FirstFaultIsReported : Prop :=
  ∀ (i : Instr) (s : State),
    (∀ k, firstFault i s = some k → exec i s = .next (s.faulted k i.opcode.number)) ∧
    (firstFault i s = none → ∀ t, exec i s = .next t → t.phase = s.phase ∧ t.res = s.res)

/-- Faults are precise: when a step of a run reports a fault, the state is the one before the faulting instruction began but for
the result and the phase, and the report holds its index (60_exceptions.md section 2). -/
def Obligations.FaultsArePrecise : Prop :=
  ∀ s t : State, EngineTurn s → s.running = true → s.res.status = .none → step s = .next t → t.res.status = .err →
    t = { s.turnTaken with res := t.res, phase := .ready } ∧ t.res.fpc = s.pc ∧ t.res.cause ≠ none

/-- R101: DivisionByZero, code 2, is raised by `div` and `mod` and by no other instruction, when the divisor's value is 0: after
both sources were read (an unreadable source is met first) and before the destination is written. -/
def Obligations.DivisionByZeroOnlyFromZeroDivisor : Prop :=
  (∀ (i : Instr) (s : State), s.running = true →
    ((∃ b, i.divisor = some b ∧ s.valueOf b = 0 ∧ ∀ a ∈ i.sources, s.readable a) ↔
      exec i s = .next (s.faulted .divisionByZero i.opcode.number))) ∧
  (∀ (i : Instr) (b : Operand), i.divisor = some b → i.opcode = .div ∨ i.opcode = .mod) ∧
  FaultKind.divisionByZero.code = 2

/-- Whether an instruction other than `div` and `mod` raises OutOfBounds depends on its word and MEM_SIZE only, never on data
(20_memory.md section 1). -/
def Obligations.OutOfBoundsIgnoresData : Prop :=
  ∀ (i : Instr) (s s' : State), i.divisor = none → s.params.memSize = s'.params.memSize →
    s.res = .cleared → s'.res = .cleared →
    ((∃ t, exec i s = .next t ∧ t.res.cause = some .outOfBounds) ↔
      (∃ t, exec i s' = .next t ∧ t.res.cause = some .outOfBounds))

/-- A program whose every address operand is below 32 never raises OutOfBounds, whatever MEM_SIZE is: each step from a state of a
run of it keeps the program and reports no such fault (law T12). -/
def Obligations.AddressesBelowThirtyTwoNeverFault : Prop :=
  ∀ s t : State, Inv s → (∀ w ∈ s.params.imem, ∀ i, decode w = .ok i → i.addrsBelow 32) →
    s.res.cause ≠ some .outOfBounds → step s = .next t →
    t.res.cause ≠ some .outOfBounds ∧ t.params = s.params ∧ Inv t

/-- An instruction that raises no fault changes pc, and at most one slot of M or the tail of dq (and cc for `color`), never both
(45_run_control.md section 3, law T6). -/
def Obligations.InstructionChangesOneSlotOrOneCommand : Prop :=
  ∀ (i : Instr) (s t : State), s.mem.wf = true → firstFault i s = none → exec i s = .next t →
    (∃ d r, i.dest = some d ∧ StoresOnly s t d r) ∨
    (i.draws = true ∧ i.opcode ≠ .color ∧ ∃ c, AppendsOnly s t c) ∨
    (i.opcode = .color ∧ ∃ c, AppendsOnly { s with cc := t.cc } t c) ∨
    (i.opcode = .jmp ∧ t = { s with pc := t.pc })

/-- A draw instruction stops exactly when it would append to a queue that holds DQ_DEPTH commands, no other instruction stops, and
none is refused (93_implementation_defined.md U4; the stop is the model's choice, assumption 5). -/
def Obligations.DrawStopsExactlyAtFullQueue : Prop :=
  ∀ (i : Instr) (s : State),
    (exec i s = .fault .drawQueueFull ↔
      i.draws = true ∧ firstFault i s = none ∧ ∃ n, s.params.dqDepth = some n ∧ n ≤ s.dq.length) ∧
    ∀ r, exec i s ≠ .refused r

/-- No engine move takes a command out of the queue, and each appends at most one, at the tail (44_draw_io.md section 3, law
T9). -/
def Obligations.EngineOnlyAppendsToQueue : Prop :=
  ∀ s t : State, EngineTurn s → step s = .next t → t.dq = s.dq ∨ ∃ c, t.dq = s.dq ++ [c]

/-! ### The instructions. Each statement says where the instruction completes and with what result and frame, where it faults,
and its opcode number. -/

/-- `mov d s` copies the source's value (40_data_move.md; operand order by decision D4). -/
def Obligations.MovCopiesToSlot : Prop :=
  ∀ (d : Word) (a : Operand) (s : State),
    (s.mem.wf = true → s.readable a → s.validAddr d →
      ∃ t, exec (.mov d a) s = .next t ∧ StoresOnly s t d (s.valueOf a)) ∧
    (¬ (s.readable a ∧ s.validAddr d) → exec (.mov d a) s = .next (s.faulted .outOfBounds 0)) ∧
    (encode (.mov d a)).extractLsb' 140 4 = 0

/-- R70: `add` wraps modulo 2^32, read as signed. -/
def Obligations.AddWrapsToSlot : Prop :=
  ∀ (d : Word) (a b : Operand) (s : State),
    (s.mem.wf = true → s.readable a → s.readable b → s.validAddr d →
      ∃ t r, exec (.add d a b) s = .next t ∧ StoresOnly s t d r ∧
        r.toInt = wrap32 ((s.valueOf a).toInt + (s.valueOf b).toInt)) ∧
    (¬ (s.readable a ∧ s.readable b ∧ s.validAddr d) → exec (.add d a b) s = .next (s.faulted .outOfBounds 1)) ∧
    (encode (.add d a b)).extractLsb' 140 4 = 1

/-- `sub`: the first source minus the second, wrapping (41_arithmetic.md section 2; operand order by decision D4). -/
def Obligations.SubWrapsToSlot : Prop :=
  ∀ (d : Word) (a b : Operand) (s : State),
    (s.mem.wf = true → s.readable a → s.readable b → s.validAddr d →
      ∃ t r, exec (.sub d a b) s = .next t ∧ StoresOnly s t d r ∧
        r.toInt = wrap32 ((s.valueOf a).toInt - (s.valueOf b).toInt)) ∧
    (¬ (s.readable a ∧ s.readable b ∧ s.validAddr d) → exec (.sub d a b) s = .next (s.faulted .outOfBounds 2)) ∧
    (encode (.sub d a b)).extractLsb' 140 4 = 2

/-- R72: `mul` keeps the low 32 bits of the exact product. -/
def Obligations.MulWrapsToSlot : Prop :=
  ∀ (d : Word) (a b : Operand) (s : State),
    (s.mem.wf = true → s.readable a → s.readable b → s.validAddr d →
      ∃ t r, exec (.mul d a b) s = .next t ∧ StoresOnly s t d r ∧
        r.toInt = wrap32 ((s.valueOf a).toInt * (s.valueOf b).toInt)) ∧
    (¬ (s.readable a ∧ s.readable b ∧ s.validAddr d) → exec (.mul d a b) s = .next (s.faulted .outOfBounds 3)) ∧
    (encode (.mul d a b)).extractLsb' 140 4 = 3

/-- `div`: the quotient rounded toward zero (decision D9); the one overflow gives the parameter DIV_OVERFLOW_RESULT, whatever its
value (decision D10, assumption 4); a zero divisor raises DivisionByZero before the destination is looked at
(41_arithmetic.md section 2). -/
def Obligations.DivTruncatesToSlot : Prop :=
  ∀ (d : Word) (a b : Operand) (s : State),
    (s.mem.wf = true → s.readable a → s.readable b → s.validAddr d → s.valueOf b ≠ 0 →
      ∃ t r, exec (.div d a b) s = .next t ∧ StoresOnly s t d r ∧
        (if (s.valueOf a).toInt = -2147483648 ∧ (s.valueOf b).toInt = -1 then r = s.params.divOverflowResult
         else r.toInt = Int.tdiv (s.valueOf a).toInt (s.valueOf b).toInt)) ∧
    (s.readable a → s.readable b → s.valueOf b = 0 → exec (.div d a b) s = .next (s.faulted .divisionByZero 4)) ∧
    (¬ (s.readable a ∧ s.readable b) → exec (.div d a b) s = .next (s.faulted .outOfBounds 4)) ∧
    (s.readable a → s.readable b → s.valueOf b ≠ 0 → ¬ s.validAddr d →
      exec (.div d a b) s = .next (s.faulted .outOfBounds 4)) ∧
    (encode (.div d a b)).extractLsb' 140 4 = 4

/-- R74: `mod` is the remainder of the truncating division, from the exact quotient; it has the dividend's sign or is 0, and its
magnitude is less than the divisor's. -/
def Obligations.ModFollowsDividend : Prop :=
  ∀ (d : Word) (a b : Operand) (s : State),
    (s.mem.wf = true → s.readable a → s.readable b → s.validAddr d → s.valueOf b ≠ 0 →
      ∃ t r, exec (.mod d a b) s = .next t ∧ StoresOnly s t d r ∧
        r.toInt = (s.valueOf a).toInt - (s.valueOf b).toInt * Int.tdiv (s.valueOf a).toInt (s.valueOf b).toInt ∧
        (r.toInt = 0 ∨ r.toInt.sign = (s.valueOf a).toInt.sign) ∧ |r.toInt| < |(s.valueOf b).toInt|) ∧
    (s.readable a → s.readable b → s.valueOf b = 0 → exec (.mod d a b) s = .next (s.faulted .divisionByZero 5)) ∧
    (¬ (s.readable a ∧ s.readable b) → exec (.mod d a b) s = .next (s.faulted .outOfBounds 5)) ∧
    (s.readable a → s.readable b → s.valueOf b ≠ 0 → ¬ s.validAddr d →
      exec (.mod d a b) s = .next (s.faulted .outOfBounds 5)) ∧
    (encode (.mod d a b)).extractLsb' 140 4 = 5

/-- `less` stores 1 when the first source is less than the second as signed integers, else 0 (42_compare_logic.md; decisions D4,
D23). -/
def Obligations.LessComparesSigned : Prop :=
  ∀ (d : Word) (a b : Operand) (s : State),
    (s.mem.wf = true → s.readable a → s.readable b → s.validAddr d →
      ∃ t, exec (.less d a b) s = .next t ∧
        StoresOnly s t d (if (s.valueOf a).toInt < (s.valueOf b).toInt then 1 else 0)) ∧
    (¬ (s.readable a ∧ s.readable b ∧ s.validAddr d) → exec (.less d a b) s = .next (s.faulted .outOfBounds 6)) ∧
    (encode (.less d a b)).extractLsb' 140 4 = 6

/-- R77: `equal` stores 1 when the two values are the same, else 0. -/
def Obligations.EqualComparesValues : Prop :=
  ∀ (d : Word) (a b : Operand) (s : State),
    (s.mem.wf = true → s.readable a → s.readable b → s.validAddr d →
      ∃ t, exec (.equal d a b) s = .next t ∧ StoresOnly s t d (if s.valueOf a = s.valueOf b then 1 else 0)) ∧
    (¬ (s.readable a ∧ s.readable b ∧ s.validAddr d) → exec (.equal d a b) s = .next (s.faulted .outOfBounds 7)) ∧
    (encode (.equal d a b)).extractLsb' 140 4 = 7

/-- `not` stores 1 when the source is 0, else 0 (42_compare_logic.md; operand order by decision D4). -/
def Obligations.NotNegatesLogically : Prop :=
  ∀ (d : Word) (a : Operand) (s : State),
    (s.mem.wf = true → s.readable a → s.validAddr d →
      ∃ t, exec (.not d a) s = .next t ∧ StoresOnly s t d (if (s.valueOf a).toInt = 0 then 1 else 0)) ∧
    (¬ (s.readable a ∧ s.validAddr d) → exec (.not d a) s = .next (s.faulted .outOfBounds 8)) ∧
    (encode (.not d a)).extractLsb' 140 4 = 8

/-- `jmp t c`: a non-zero condition, negative ones included, sets pc to the target, a zero one advances; nothing else changes; a
taken jump to or beyond PROG_LEN ends the run at the next step (43_control_flow.md, decision D12). -/
def Obligations.JmpSetsOrAdvancesPc : Prop :=
  ∀ (t : Word) (c : Operand) (s : State),
    (s.readable c → (s.valueOf c).toInt ≠ 0 → exec (.jmp t c) s = .next { s with pc := t.toNat }) ∧
    (s.readable c → (s.valueOf c).toInt = 0 → exec (.jmp t c) s = .next { s with pc := s.pc + 1 }) ∧
    (¬ s.readable c → exec (.jmp t c) s = .next (s.faulted .outOfBounds 9)) ∧
    (encode (.jmp t c)).extractLsb' 140 4 = 9 ∧
    (s.schedule = [] → AboutToRun s (.jmp t c) → s.readable c → s.valueOf c ≠ 0 → s.params.imem.length ≤ t.toNat →
      core.run 2 s = .next { s with
        pc := t.toNat, phase := .ready, res := { status := .ok, cause := none, fpc := 0, fop := 0 } })

/-- `color r g b` appends SetColor with the values verbatim and sets cc to their low bytes (44_draw_io.md; decision D15 for
components outside 0 .. 255). -/
def Obligations.ColorAppendsAndSetsColour : Prop :=
  ∀ (r g b : Operand) (s : State),
    (s.readable r → s.readable g → s.readable b → s.QueueHasRoom →
      ∃ t, exec (.color r g b) s = .next t ∧
        AppendsOnly { s with cc := t.cc } t (.setColor (s.valueOf r) (s.valueOf g) (s.valueOf b)) ∧
        (t.cc.r.toNat : Int) = (s.valueOf r).toInt % 256 ∧ (t.cc.g.toNat : Int) = (s.valueOf g).toInt % 256 ∧
        (t.cc.b.toNat : Int) = (s.valueOf b).toInt % 256) ∧
    (¬ (s.readable r ∧ s.readable g ∧ s.readable b) → exec (.color r g b) s = .next (s.faulted .outOfBounds 10)) ∧
    (encode (.color r g b)).extractLsb' 140 4 = 10

/-- R85: `point x y` appends Point with the values unchanged. -/
def Obligations.PointAppends : Prop :=
  ∀ (x y : Operand) (s : State),
    (s.readable x → s.readable y → s.QueueHasRoom →
      ∃ t, exec (.point x y) s = .next t ∧ AppendsOnly s t (.point (s.valueOf x) (s.valueOf y))) ∧
    (¬ (s.readable x ∧ s.readable y) → exec (.point x y) s = .next (s.faulted .outOfBounds 11)) ∧
    (encode (.point x y)).extractLsb' 140 4 = 11

/-- R86: `line x1 y1 x2 y2` appends Line with the end points in the order given. -/
def Obligations.LineAppends : Prop :=
  ∀ (x1 y1 x2 y2 : Operand) (s : State),
    (s.readable x1 → s.readable y1 → s.readable x2 → s.readable y2 → s.QueueHasRoom →
      ∃ t, exec (.line x1 y1 x2 y2) s = .next t ∧
        AppendsOnly s t (.line (s.valueOf x1) (s.valueOf y1) (s.valueOf x2) (s.valueOf y2))) ∧
    (¬ (s.readable x1 ∧ s.readable y1 ∧ s.readable x2 ∧ s.readable y2) →
      exec (.line x1 y1 x2 y2) s = .next (s.faulted .outOfBounds 12)) ∧
    (encode (.line x1 y1 x2 y2)).extractLsb' 140 4 = 12

/-- R87: `rect x y w h` appends Rect, a position and a size, carried as given. -/
def Obligations.RectAppends : Prop :=
  ∀ (x y w h : Operand) (s : State),
    (s.readable x → s.readable y → s.readable w → s.readable h → s.QueueHasRoom →
      ∃ t, exec (.rect x y w h) s = .next t ∧
        AppendsOnly s t (.rect (s.valueOf x) (s.valueOf y) (s.valueOf w) (s.valueOf h))) ∧
    (¬ (s.readable x ∧ s.readable y ∧ s.readable w ∧ s.readable h) →
      exec (.rect x y w h) s = .next (s.faulted .outOfBounds 13)) ∧
    (encode (.rect x y w h)).extractLsb' 140 4 = 13

/-! ### Laws over several instructions -/

/-- `mov $a $a` and a jump on the immediate 0 change nothing but pc (30_encoding.md section 5: a program's no-ops). -/
def Obligations.NoOpsChangeOnlyPc : Prop :=
  ∀ (s : State) (a t : Word),
    (s.mem.wf = true → s.validAddr a → exec (.mov a (.addr a)) s = .next { s with pc := s.pc + 1 }) ∧
    exec (.jmp t (.imm 0)) s = .next { s with pc := s.pc + 1 }

/-- `div` and `mod` agree: for a non-zero divisor and outside the one overflow, quotient times divisor plus remainder is the
dividend (41_arithmetic.md section 3, law T7). -/
def Obligations.DivAndModAgree : Prop :=
  ∀ (s : State) (d e : Word) (a b : Operand), s.mem.wf = true → s.readable a → s.readable b → s.validAddr d →
    s.validAddr e → s.valueOf b ≠ 0 → ¬ ((s.valueOf a).toInt = -2147483648 ∧ (s.valueOf b).toInt = -1) →
    ∃ t u, exec (.div d a b) s = .next t ∧ exec (.mod e a b) s = .next u ∧
      (t.slot d).toInt * (s.valueOf b).toInt + (u.slot e).toInt = (s.valueOf a).toInt

/-- `not d d` twice turns any non-zero value into 1 and leaves 0 as 0 (42_compare_logic.md, law T8). -/
def Obligations.NotTwiceNormalises : Prop :=
  ∀ (s : State) (d : Word), s.mem.wf = true → s.validAddr d →
    ∃ t u, exec (.not d (.addr d)) s = .next t ∧ exec (.not d (.addr d)) t = .next u ∧
      u.slot d = if s.slot d = 0 then 0 else 1

/-- `a > b` is `less d b a`, and `a ≤ b` is `less d b a` followed by `not d d` (42_compare_logic.md section on `less`; operand
order by decision D4, assumption 15). -/
def Obligations.LessThenNotIsAtMost : Prop :=
  ∀ (s : State) (d : Word) (a b : Operand), s.mem.wf = true → s.readable a → s.readable b → s.validAddr d →
    ∃ t u, exec (.less d b a) s = .next t ∧ exec (.not d (.addr d)) t = .next u ∧
      (t.slot d = if (s.valueOf a).toInt > (s.valueOf b).toInt then 1 else 0) ∧
      u.slot d = if (s.valueOf a).toInt ≤ (s.valueOf b).toInt then 1 else 0
end

