-- ==== Sys2Proof/Laws/Encoding.lean ====
section
/-! SUPPORT. The word layout: its ten fields and the 144-bit word determine each other (spec 30_encoding.md R48, R56). -/

namespace Sys2Proof

theorem extract_high {a b : Nat} (x : BitVec a) (y : BitVec b) (st len : Nat) (hs : b ≤ st) :
    (x ++ y).extractLsb' st len = x.extractLsb' (st - b) len := by
  rw [BitVec.extractLsb'_append_eq_ite, dif_neg (by omega)]

theorem extract_low {a b : Nat} (x : BitVec a) (y : BitVec b) (st len : Nat) (hs : st + len ≤ b) (hl : 0 < len) :
    (x ++ y).extractLsb' st len = y.extractLsb' st len := by
  rw [BitVec.extractLsb'_append_eq_ite, dif_pos (by omega), dif_pos hs]

/-- Two adjoining slices are one. -/
theorem extract_join {n : Nat} (w : BitVec n) (s a b t : Nat) (ht : t = s + b) :
    w.extractLsb' t a ++ w.extractLsb' s b = w.extractLsb' s (a + b) :=
  BitVec.extractLsb'_append_extractLsb'_eq_extractLsb' ht

/-- Writing the fields read from a word gives it back. -/
theorem Fields.toWord_ofWord (w : InstrWord) : (Fields.ofWord w).toWord = w := by
  unfold Fields.toWord
  simp only [Fields.ofWord]
  rw [extract_join w 138 4 2 140 rfl, extract_join w 136 6 2 138 rfl, extract_join w 134 8 2 136 rfl,
    extract_join w 132 10 2 134 rfl, extract_join w 128 12 4 132 rfl, extract_join w 64 32 32 96 rfl,
    extract_join w 32 64 32 64 rfl, extract_join w 0 96 32 32 rfl, extract_join w 0 16 128 128 rfl]
  exact BitVec.extractLsb'_eq_self

/-- Reading the fields of a word that was written from fields gives them back. -/
theorem Fields.ofWord_toWord (f : Fields) : Fields.ofWord f.toWord = f := by
  obtain ⟨op, k0, k1, k2, k3, rsv, v0, v1, v2, v3⟩ := f
  unfold Fields.toWord
  simp only [Fields.ofWord, Fields.mk.injEq]
  refine ⟨?_, ?_, ?_, ?_, ?_, ?_, ?_, ?_, ?_, ?_⟩
  · rw [extract_high (a := 16) (b := 128) _ _ 140 4 (by decide),
      extract_high (a := 12) (b := 4) _ _ 12 4 (by decide),
      extract_high (a := 10) (b := 2) _ _ 8 4 (by decide),
      extract_high (a := 8) (b := 2) _ _ 6 4 (by decide),
      extract_high (a := 6) (b := 2) _ _ 4 4 (by decide),
      extract_high (a := 4) (b := 2) _ _ 2 4 (by decide)]
    exact BitVec.extractLsb'_eq_self
  · rw [extract_high (a := 16) (b := 128) _ _ 138 2 (by decide),
      extract_high (a := 12) (b := 4) _ _ 10 2 (by decide),
      extract_high (a := 10) (b := 2) _ _ 6 2 (by decide),
      extract_high (a := 8) (b := 2) _ _ 4 2 (by decide),
      extract_high (a := 6) (b := 2) _ _ 2 2 (by decide),
      extract_low (a := 4) (b := 2) _ _ 0 2 (by decide) (by decide)]
    exact BitVec.extractLsb'_eq_self
  · rw [extract_high (a := 16) (b := 128) _ _ 136 2 (by decide),
      extract_high (a := 12) (b := 4) _ _ 8 2 (by decide),
      extract_high (a := 10) (b := 2) _ _ 4 2 (by decide),
      extract_high (a := 8) (b := 2) _ _ 2 2 (by decide),
      extract_low (a := 6) (b := 2) _ _ 0 2 (by decide) (by decide)]
    exact BitVec.extractLsb'_eq_self
  · rw [extract_high (a := 16) (b := 128) _ _ 134 2 (by decide),
      extract_high (a := 12) (b := 4) _ _ 6 2 (by decide),
      extract_high (a := 10) (b := 2) _ _ 2 2 (by decide),
      extract_low (a := 8) (b := 2) _ _ 0 2 (by decide) (by decide)]
    exact BitVec.extractLsb'_eq_self
  · rw [extract_high (a := 16) (b := 128) _ _ 132 2 (by decide),
      extract_high (a := 12) (b := 4) _ _ 4 2 (by decide),
      extract_low (a := 10) (b := 2) _ _ 0 2 (by decide) (by decide)]
    exact BitVec.extractLsb'_eq_self
  · rw [extract_high (a := 16) (b := 128) _ _ 128 4 (by decide),
      extract_low (a := 12) (b := 4) _ _ 0 4 (by decide) (by decide)]
    exact BitVec.extractLsb'_eq_self
  · rw [extract_low (a := 16) (b := 128) _ _ 96 32 (by decide) (by decide),
      extract_high (a := 96) (b := 32) _ _ 96 32 (by decide),
      extract_high (a := 64) (b := 32) _ _ 64 32 (by decide),
      extract_high (a := 32) (b := 32) _ _ 32 32 (by decide)]
    exact BitVec.extractLsb'_eq_self
  · rw [extract_low (a := 16) (b := 128) _ _ 64 32 (by decide) (by decide),
      extract_high (a := 96) (b := 32) _ _ 64 32 (by decide),
      extract_high (a := 64) (b := 32) _ _ 32 32 (by decide),
      extract_low (a := 32) (b := 32) _ _ 0 32 (by decide) (by decide)]
    exact BitVec.extractLsb'_eq_self
  · rw [extract_low (a := 16) (b := 128) _ _ 32 32 (by decide) (by decide),
      extract_high (a := 96) (b := 32) _ _ 32 32 (by decide),
      extract_low (a := 64) (b := 32) _ _ 0 32 (by decide) (by decide)]
    exact BitVec.extractLsb'_eq_self
  · rw [extract_low (a := 16) (b := 128) _ _ 0 32 (by decide) (by decide),
      extract_low (a := 96) (b := 32) _ _ 0 32 (by decide) (by decide)]
    exact BitVec.extractLsb'_eq_self

/-- An opcode's number is read back as it. -/
theorem Opcode.ofNumber_number (o : Opcode) : Opcode.ofNumber o.number = some o := by
  cases o <;> rfl

/-- A number that stands for an opcode is its number. -/
theorem Opcode.number_of_ofNumber {n : BitVec 4} {o : Opcode} (h : Opcode.ofNumber n = some o) : o.number = n := by
  revert n o
  decide

/-- A source operand is read back from its kind and value. -/
theorem sourceOf_kind_value (a : Operand) : sourceOf a.kind a.value = .ok a := by
  cases a <;> rfl

/-- A slot read as a source has the kind and value of that operand. -/
theorem kind_value_of_sourceOf {k : BitVec 2} {v : Word} {a : Operand} (h : sourceOf k v = .ok a) :
    a.kind = k ∧ a.value = v := by
  unfold sourceOf at h
  split at h
  · cases h; exact ⟨‹k = _›.symm, rfl⟩
  · split at h
    · cases h; exact ⟨‹k = kindAddr›.symm, rfl⟩
    · cases h

theorem destOf_eq {k : BitVec 2} {v d : Word} : destOf k v = .ok d ↔ k = kindAddr ∧ v = d := by
  unfold destOf
  split <;> simp_all

theorem targetOf_eq {k : BitVec 2} {v t : Word} : targetOf k v = .ok t ↔ k = kindTgt ∧ targetOk v = true ∧ v = t := by
  unfold targetOf
  split
  · split <;> simp_all
  · simp_all

theorem unusedSlot_eq {k : BitVec 2} {v : Word} {u : Unit} : unusedSlot k v = .ok u ↔ k = kindNone ∧ v = 0 := by
  unfold unusedSlot
  split
  · split <;> simp_all
  · simp_all

end Sys2Proof
end

