-- ==== Sys2Proof/Laws/Memory.lean ====
section
/-! SUPPORT. Memory: a write is read back, leaves every other slot alone, keeps the canonical form and the bound, and equal
memories are equal lists (spec 20_memory.md R38; 10_state.md R15). -/

namespace Sys2Proof.Machine

open Sys2Proof

theorem Memory.wfFrom_cons {lo b : Nat} {w : Word} {m : Memory} :
    Memory.wfFrom lo ((b, w) :: m) = true ↔ lo ≤ b ∧ w ≠ Memory.unlisted ∧ Memory.wfFrom (b + 1) m = true := by
  simp [Memory.wfFrom, and_assoc]

theorem Memory.wfFrom_mono {lo lo' : Nat} {m : Memory} (h : Memory.wfFrom lo' m = true) (hl : lo ≤ lo') :
    Memory.wfFrom lo m = true := by
  cases m with
  | nil => rfl
  | cons c m =>
    obtain ⟨hb, hw, hm⟩ := Memory.wfFrom_cons.1 h
    exact Memory.wfFrom_cons.2 ⟨hl.trans hb, hw, hm⟩

/-- A slot below every listed one holds the unlisted value. -/
theorem Memory.read_of_lt {m : Memory} : ∀ {lo a : Nat}, Memory.wfFrom lo m = true → a < lo → m.read a = Memory.unlisted := by
  induction m with
  | nil => intros; rfl
  | cons c m ih =>
    intro lo a h ha
    obtain ⟨hb, -, hm⟩ := Memory.wfFrom_cons.1 h
    have hne : a ≠ c.1 := by omega
    simpa [Memory.read, hne] using ih hm (by omega)

theorem Memory.wfFrom_put {m : Memory} {lo a : Nat} {v : Word} (hm : Memory.wfFrom (a + 1) m = true) (ha : lo ≤ a) :
    Memory.wfFrom lo (Memory.put m a v) = true := by
  unfold Memory.put
  split
  · exact Memory.wfFrom_mono hm (by omega)
  · exact Memory.wfFrom_cons.2 ⟨ha, ‹_›, hm⟩

theorem Memory.wfFrom_write {m : Memory} {a : Nat} {v : Word} :
    ∀ {lo : Nat}, Memory.wfFrom lo m = true → lo ≤ a → Memory.wfFrom lo (m.write a v) = true := by
  induction m with
  | nil => intro lo _ ha; exact Memory.wfFrom_put rfl ha
  | cons c m ih =>
    intro lo h ha
    obtain ⟨hb, hw, hm⟩ := Memory.wfFrom_cons.1 h
    simp only [Memory.write]
    split
    · exact Memory.wfFrom_put (Memory.wfFrom_cons.2 ⟨by omega, hw, hm⟩) ha
    · split
      · subst a; exact Memory.wfFrom_put hm ha
      · exact Memory.wfFrom_cons.2 ⟨hb, hw, ih hm (by omega)⟩

/-- A write keeps the canonical form. -/
theorem Memory.wf_write {m : Memory} (h : m.wf = true) (a : Nat) (v : Word) : (m.write a v).wf = true :=
  Memory.wfFrom_write h (Nat.zero_le a)

theorem Memory.read_put {m : Memory} {a b : Nat} {v : Word} (h : Memory.wfFrom (a + 1) m = true) :
    (Memory.put m a v).read b = if b = a then v else m.read b := by
  unfold Memory.put
  split
  · split
    · subst b; rw [Memory.read_of_lt h (Nat.lt_succ_self a), ‹v = _›]
    · rfl
  · rfl

theorem Memory.read_write_from {m : Memory} {a b : Nat} {v : Word} :
    ∀ {lo : Nat}, Memory.wfFrom lo m = true → (m.write a v).read b = if b = a then v else m.read b := by
  induction m with
  | nil => intro lo _; exact Memory.read_put rfl
  | cons c m ih =>
    intro lo h
    obtain ⟨hb, hw, hm⟩ := Memory.wfFrom_cons.1 h
    simp only [Memory.write]
    split
    · exact Memory.read_put (Memory.wfFrom_cons.2 ⟨by omega, hw, hm⟩)
    · split
      · subst a
        rw [Memory.read_put hm]
        by_cases hbc : b = c.1 <;> simp [Memory.read, hbc]
      · by_cases hbc : b = c.1
        · have hba : b ≠ a := by omega
          simp [Memory.read, hbc, hbc ▸ hba]
        · simp [Memory.read, hbc, ih hm]

/-- Reading after a write (R38). -/
theorem Memory.read_write {m : Memory} (h : m.wf = true) (a b : Nat) (v : Word) :
    (m.write a v).read b = if b = a then v else m.read b :=
  Memory.read_write_from h

theorem Memory.below_cons {n : Nat} {c : Nat × Word} {m : Memory} :
    Memory.below n (c :: m) = true ↔ c.1 < n ∧ Memory.below n m = true := by
  simp only [Memory.below, List.all_cons, Bool.and_eq_true, decide_eq_true_eq]

theorem Memory.below_put {m : Memory} {n a : Nat} {v : Word} (h : Memory.below n m = true) (ha : a < n) :
    Memory.below n (Memory.put m a v) = true := by
  unfold Memory.put
  split
  · exact h
  · exact Memory.below_cons.2 ⟨ha, h⟩

/-- A write below the bound keeps the bound. -/
theorem Memory.below_write {m : Memory} {n a : Nat} {v : Word} (h : Memory.below n m = true) (ha : a < n) :
    Memory.below n (m.write a v) = true := by
  induction m with
  | nil => exact Memory.below_put h ha
  | cons c m ih =>
    obtain ⟨hc, hm⟩ := Memory.below_cons.1 h
    simp only [Memory.write]
    split
    · exact Memory.below_put h ha
    · split
      · exact Memory.below_put hm ha
      · exact Memory.below_cons.2 ⟨hc, ih hm⟩

theorem Memory.ext_from {m m' : Memory} :
    ∀ {lo lo' : Nat}, Memory.wfFrom lo m = true → Memory.wfFrom lo' m' = true → (∀ a, m.read a = m'.read a) → m = m' := by
  induction m generalizing m' with
  | nil =>
    intro lo lo' _ h' heq
    cases m' with
    | nil => rfl
    | cons c m' =>
      have := heq c.1
      simp [Memory.read] at this
      exact absurd this.symm (Memory.wfFrom_cons.1 h').2.1
  | cons c m ih =>
    intro lo lo' h h' heq
    obtain ⟨-, hw, hm⟩ := Memory.wfFrom_cons.1 h
    cases m' with
    | nil =>
      have := heq c.1
      simp [Memory.read] at this
      exact absurd this hw
    | cons c' m' =>
      obtain ⟨-, hw', hm'⟩ := Memory.wfFrom_cons.1 h'
      have key : c.1 = c'.1 := by
        rcases Nat.lt_trichotomy c.1 c'.1 with hlt | heq' | hgt
        · have := heq c.1
          rw [Memory.read_of_lt (Memory.wfFrom_cons.2 ⟨Nat.succ_le_of_lt hlt, hw', hm'⟩) (Nat.lt_succ_self _)] at this
          simp [Memory.read] at this
          exact absurd this hw
        · exact heq'
        · have := heq c'.1
          rw [Memory.read_of_lt (Memory.wfFrom_cons.2 ⟨Nat.succ_le_of_lt hgt, hw, hm⟩) (Nat.lt_succ_self _)] at this
          simp [Memory.read] at this
          exact absurd this.symm hw'
      have val : c.2 = c'.2 := by
        have := heq c.1
        simpa [Memory.read, key] using this
      have rest : m = m' := by
        refine ih hm hm' fun a => ?_
        by_cases ha : a = c.1
        · rw [Memory.read_of_lt hm (by omega), Memory.read_of_lt hm' (by omega)]
        · have := heq a
          simpa [Memory.read, ha, key ▸ ha] using this
      rw [rest, Prod.ext key val]

/-- Memories in canonical form that read alike are the same list. -/
theorem Memory.ext {m m' : Memory} (h : m.wf = true) (h' : m'.wf = true) (heq : ∀ a, m.read a = m'.read a) : m = m' :=
  Memory.ext_from h h' heq

/-- Writing what a slot holds changes nothing. -/
theorem Memory.write_read {m : Memory} (h : m.wf = true) (a : Nat) : m.write a (m.read a) = m := by
  refine Memory.ext (Memory.wf_write h a _) h fun b => ?_
  rw [Memory.read_write h]
  split
  · subst b; rfl
  · rfl

end Sys2Proof.Machine
end

