-- ==== Sys2Proof/Laws/State.lean ====
section
/-! SUPPORT. What each update of State leaves in each field, true by unfolding once, here. -/

namespace Sys2Proof.Machine

open Sys2Proof

section advance

variable (s : State)

@[simp] theorem State.advance_mem : s.advance.mem = s.mem := rfl
@[simp] theorem State.advance_pc : s.advance.pc = s.pc + 1 := rfl
@[simp] theorem State.advance_phase : s.advance.phase = s.phase := rfl
@[simp] theorem State.advance_cc : s.advance.cc = s.cc := rfl
@[simp] theorem State.advance_dq : s.advance.dq = s.dq := rfl
@[simp] theorem State.advance_res : s.advance.res = s.res := rfl
@[simp] theorem State.advance_params : s.advance.params = s.params := rfl
@[simp] theorem State.advance_schedule : s.advance.schedule = s.schedule := rfl
@[simp] theorem State.advance_replies : s.advance.replies = s.replies := rfl

end advance

section jumpTo

variable (s : State) (t : Nat)

@[simp] theorem State.jumpTo_mem : (s.jumpTo t).mem = s.mem := rfl
@[simp] theorem State.jumpTo_pc : (s.jumpTo t).pc = t := rfl
@[simp] theorem State.jumpTo_phase : (s.jumpTo t).phase = s.phase := rfl
@[simp] theorem State.jumpTo_cc : (s.jumpTo t).cc = s.cc := rfl
@[simp] theorem State.jumpTo_dq : (s.jumpTo t).dq = s.dq := rfl
@[simp] theorem State.jumpTo_res : (s.jumpTo t).res = s.res := rfl
@[simp] theorem State.jumpTo_params : (s.jumpTo t).params = s.params := rfl
@[simp] theorem State.jumpTo_schedule : (s.jumpTo t).schedule = s.schedule := rfl
@[simp] theorem State.jumpTo_replies : (s.jumpTo t).replies = s.replies := rfl

end jumpTo

section push

variable (s : State) (c : DrawCmd)

@[simp] theorem State.push_mem : (s.push c).mem = s.mem := rfl
@[simp] theorem State.push_pc : (s.push c).pc = s.pc := rfl
@[simp] theorem State.push_phase : (s.push c).phase = s.phase := rfl
@[simp] theorem State.push_cc : (s.push c).cc = s.cc := rfl
@[simp] theorem State.push_dq : (s.push c).dq = s.dq ++ [c] := rfl
@[simp] theorem State.push_res : (s.push c).res = s.res := rfl
@[simp] theorem State.push_params : (s.push c).params = s.params := rfl
@[simp] theorem State.push_schedule : (s.push c).schedule = s.schedule := rfl
@[simp] theorem State.push_replies : (s.push c).replies = s.replies := rfl

end push

section takeFault

variable (s : State) (k : FaultKind) (op : BitVec 4)

@[simp] theorem State.takeFault_mem : (s.takeFault k op).mem = s.mem := rfl
@[simp] theorem State.takeFault_pc : (s.takeFault k op).pc = s.pc := rfl
@[simp] theorem State.takeFault_phase : (s.takeFault k op).phase = .ready := rfl
@[simp] theorem State.takeFault_cc : (s.takeFault k op).cc = s.cc := rfl
@[simp] theorem State.takeFault_dq : (s.takeFault k op).dq = s.dq := rfl
@[simp] theorem State.takeFault_res : (s.takeFault k op).res = ⟨.err, some k, s.pc, op⟩ := rfl
@[simp] theorem State.takeFault_params : (s.takeFault k op).params = s.params := rfl
@[simp] theorem State.takeFault_schedule : (s.takeFault k op).schedule = s.schedule := rfl
@[simp] theorem State.takeFault_replies : (s.takeFault k op).replies = s.replies := rfl

end takeFault

section endRun

variable (s : State)

@[simp] theorem State.endRun_mem : s.endRun.mem = s.mem := rfl
@[simp] theorem State.endRun_pc : s.endRun.pc = s.pc := rfl
@[simp] theorem State.endRun_phase : s.endRun.phase = .ready := rfl
@[simp] theorem State.endRun_cc : s.endRun.cc = s.cc := rfl
@[simp] theorem State.endRun_dq : s.endRun.dq = s.dq := rfl
@[simp] theorem State.endRun_res : s.endRun.res = .success := rfl
@[simp] theorem State.endRun_params : s.endRun.params = s.params := rfl
@[simp] theorem State.endRun_schedule : s.endRun.schedule = s.schedule := rfl
@[simp] theorem State.endRun_replies : s.endRun.replies = s.replies := rfl

end endRun

section resetEngine

variable (s : State)

@[simp] theorem State.resetEngine_mem : s.resetEngine.mem = s.params.memInit := rfl
@[simp] theorem State.resetEngine_pc : s.resetEngine.pc = 0 := rfl
@[simp] theorem State.resetEngine_phase : s.resetEngine.phase = .idle := rfl
@[simp] theorem State.resetEngine_cc : s.resetEngine.cc = .black := rfl
@[simp] theorem State.resetEngine_dq : s.resetEngine.dq = [] := rfl
@[simp] theorem State.resetEngine_res : s.resetEngine.res = .cleared := rfl
@[simp] theorem State.resetEngine_params : s.resetEngine.params = s.params := rfl
@[simp] theorem State.resetEngine_schedule : s.resetEngine.schedule = s.schedule := rfl
@[simp] theorem State.resetEngine_replies : s.resetEngine.replies = s.replies := rfl

end resetEngine

section runTick

variable (s : State)

@[simp] theorem State.runTick_mem : s.runTick.mem = s.mem := rfl
@[simp] theorem State.runTick_pc : s.runTick.pc = s.params.tickPc := rfl
@[simp] theorem State.runTick_phase : s.runTick.phase = .runTick := rfl
@[simp] theorem State.runTick_cc : s.runTick.cc = s.cc := rfl
@[simp] theorem State.runTick_dq : s.runTick.dq = [] := rfl
@[simp] theorem State.runTick_res : s.runTick.res = .cleared := rfl
@[simp] theorem State.runTick_params : s.runTick.params = s.params := rfl
@[simp] theorem State.runTick_schedule : s.runTick.schedule = s.schedule := rfl
@[simp] theorem State.runTick_replies : s.runTick.replies = s.replies := rfl

end runTick

section reply

variable (s : State) (r : Reply)

@[simp] theorem State.reply_mem : (s.reply r).mem = s.mem := rfl
@[simp] theorem State.reply_pc : (s.reply r).pc = s.pc := rfl
@[simp] theorem State.reply_phase : (s.reply r).phase = s.phase := rfl
@[simp] theorem State.reply_cc : (s.reply r).cc = s.cc := rfl
@[simp] theorem State.reply_dq : (s.reply r).dq = s.dq := rfl
@[simp] theorem State.reply_res : (s.reply r).res = s.res := rfl
@[simp] theorem State.reply_params : (s.reply r).params = s.params := rfl
@[simp] theorem State.reply_schedule : (s.reply r).schedule = s.schedule := rfl
@[simp] theorem State.reply_replies : (s.reply r).replies = s.replies ++ [r] := rfl

end reply

section withSchedule

variable (s : State) (l : List Turn)

@[simp] theorem State.withSchedule_mem : (s.withSchedule l).mem = s.mem := rfl
@[simp] theorem State.withSchedule_pc : (s.withSchedule l).pc = s.pc := rfl
@[simp] theorem State.withSchedule_phase : (s.withSchedule l).phase = s.phase := rfl
@[simp] theorem State.withSchedule_cc : (s.withSchedule l).cc = s.cc := rfl
@[simp] theorem State.withSchedule_dq : (s.withSchedule l).dq = s.dq := rfl
@[simp] theorem State.withSchedule_res : (s.withSchedule l).res = s.res := rfl
@[simp] theorem State.withSchedule_params : (s.withSchedule l).params = s.params := rfl
@[simp] theorem State.withSchedule_schedule : (s.withSchedule l).schedule = l := rfl
@[simp] theorem State.withSchedule_replies : (s.withSchedule l).replies = s.replies := rfl

end withSchedule

section runStart

variable (s : State)

@[simp] theorem State.runStart_mem : s.runStart.mem = s.mem := by unfold State.runStart; split <;> rfl
@[simp] theorem State.runStart_cc : s.runStart.cc = s.cc := by unfold State.runStart; split <;> rfl
@[simp] theorem State.runStart_dq : s.runStart.dq = s.dq := by unfold State.runStart; split <;> rfl
@[simp] theorem State.runStart_params : s.runStart.params = s.params := by unfold State.runStart; split <;> rfl
@[simp] theorem State.runStart_schedule : s.runStart.schedule = s.schedule := by unfold State.runStart; split <;> rfl
@[simp] theorem State.runStart_replies : s.runStart.replies = s.replies := by unfold State.runStart; split <;> rfl

end runStart

end Sys2Proof.Machine
end

