-- ==== Sys2Proof/Laws/Ops.lean ====
section
/-! SUPPORT. What each shared operation can do, said once. -/

namespace Sys2Proof.Machine

open Sys2Proof

theorem State.inBounds_iff (s : State) (a : Word) : s.inBounds a = true ↔ s.validAddr a := by
  simp [State.inBounds]

/-- A valid address is a slot number below `MEM_SIZE`. -/
theorem State.validAddr.toNat_lt {s : State} {a : Word} (h : s.validAddr a) : a.toInt.toNat < s.params.memSize := by
  have := h.1
  have := h.2
  omega

/-- Operand evaluation (R10): the value, or `OutOfBounds`. -/
theorem State.val_eq (s : State) (a : Operand) :
    s.val a = if a.inRange s.params.memSize then .ok (s.valueOf a) else .error .outOfBounds := by
  cases a with
  | imm v => rfl
  | addr a => simp [State.val, State.memRead, State.inBounds, Operand.inRange, State.valueOf, State.slot]

/-- `s` after `d` was written and `pc` moved on. -/
def State.stored (s : State) (d r : Word) : State := { s with mem := s.mem.write d.toInt.toNat r, pc := s.pc + 1 }

/-- The end of a storing instruction (R69): the one write and the advance, or `OutOfBounds`. -/
theorem State.store_eq (s : State) (o : Opcode) (d r : Word) :
    s.store o d r = if s.validAddr d then .next (s.stored d r) else s.raise o .outOfBounds := by
  unfold State.store State.memWrite
  by_cases h : s.inBounds d = true
  · have h' := (s.inBounds_iff d).1 h
    simp only [h, ↓reduceIte, if_pos h']
    rfl
  · have h' : ¬ s.validAddr d := fun hv => h ((s.inBounds_iff d).2 hv)
    simp [h, h']

/-- The one-source sequence (R67, R78). -/
theorem State.compute1_eq (s : State) (o : Opcode) (d : Word) (a : Operand) (f : Word → Word) :
    s.compute1 o d a f =
      if a.inRange s.params.memSize then s.store o d (f (s.valueOf a)) else s.raise o .outOfBounds := by
  unfold State.compute1
  rw [s.val_eq a]
  by_cases h : a.inRange s.params.memSize = true <;> simp [h]

/-- The two-source sequence (R69). -/
theorem State.compute2_eq (s : State) (o : Opcode) (d : Word) (a b : Operand)
    (f : Word → Word → Except FaultKind Word) :
    s.compute2 o d a b f =
      if a.inRange s.params.memSize ∧ b.inRange s.params.memSize then
        match f (s.valueOf a) (s.valueOf b) with
        | .error k => s.raise o k
        | .ok r => s.store o d r
      else s.raise o .outOfBounds := by
  unfold State.compute2
  rw [s.val_eq a, s.val_eq b]
  by_cases ha : a.inRange s.params.memSize = true <;> by_cases hb : b.inRange s.params.memSize = true <;>
    cases hf : f (s.valueOf a) (s.valueOf b) <;> simp [ha, hb, hf]

/-- `s` after `c` was appended, the colour set and `pc` moved on. -/
def State.drawn (s : State) (c : DrawCmd) (col : Color) : State :=
  { s with dq := s.dq ++ [c], cc := col, pc := s.pc + 1 }

/-- The end of a draw instruction (R83, U4). -/
theorem State.emit_eq (s : State) (c : DrawCmd) (col : Color) :
    s.emit c col = if s.hasRoom then .next (s.drawn c col) else .fault .drawQueueFull := rfl

/-- The two-operand draw sequence (R83). -/
theorem State.draw2_eq (s : State) (o : Opcode) (a b : Operand) (mk : Word → Word → DrawCmd) :
    s.draw2 o a b mk =
      if a.inRange s.params.memSize ∧ b.inRange s.params.memSize then s.emit (mk (s.valueOf a) (s.valueOf b)) s.cc
      else s.raise o .outOfBounds := by
  unfold State.draw2
  rw [s.val_eq a, s.val_eq b]
  by_cases ha : a.inRange s.params.memSize = true <;> by_cases hb : b.inRange s.params.memSize = true <;> simp [ha, hb]

/-- The four-operand draw sequence (R83). -/
theorem State.draw4_eq (s : State) (o : Opcode) (a b c d : Operand) (mk : Word → Word → Word → Word → DrawCmd) :
    s.draw4 o a b c d mk =
      if a.inRange s.params.memSize ∧ b.inRange s.params.memSize ∧ c.inRange s.params.memSize ∧ d.inRange s.params.memSize
      then s.emit (mk (s.valueOf a) (s.valueOf b) (s.valueOf c) (s.valueOf d)) s.cc
      else s.raise o .outOfBounds := by
  unfold State.draw4
  rw [s.val_eq a, s.val_eq b, s.val_eq c, s.val_eq d]
  by_cases ha : a.inRange s.params.memSize = true <;> by_cases hb : b.inRange s.params.memSize = true <;>
    by_cases hc : c.inRange s.params.memSize = true <;> by_cases hd : d.inRange s.params.memSize = true <;>
    simp [ha, hb, hc, hd]

/-- `color` (R84). -/
theorem execColor_eq (r g b : Operand) (s : State) :
    execColor r g b s =
      if r.inRange s.params.memSize ∧ g.inRange s.params.memSize ∧ b.inRange s.params.memSize then
        s.emit (.setColor (s.valueOf r) (s.valueOf g) (s.valueOf b))
          ⟨lowByte (s.valueOf r), lowByte (s.valueOf g), lowByte (s.valueOf b)⟩
      else s.raise .color .outOfBounds := by
  unfold execColor
  rw [s.val_eq r, s.val_eq g, s.val_eq b]
  by_cases hr : r.inRange s.params.memSize = true <;> by_cases hg : g.inRange s.params.memSize = true <;>
    by_cases hb : b.inRange s.params.memSize = true <;> simp [hr, hg, hb]

/-- `jmp` (R80). -/
theorem execJmp_eq (t : Word) (c : Operand) (s : State) :
    execJmp t c s =
      if c.inRange s.params.memSize then .next (if s.valueOf c ≠ 0 then s.jumpTo t.toNat else s.advance)
      else s.raise .jmp .outOfBounds := by
  unfold execJmp
  rw [s.val_eq c]
  by_cases h : c.inRange s.params.memSize = true <;> simp [h, isTrue]

@[simp] theorem State.stored_mem (s : State) (d r : Word) : (s.stored d r).mem = s.mem.write d.toInt.toNat r := rfl
@[simp] theorem State.stored_pc (s : State) (d r : Word) : (s.stored d r).pc = s.pc + 1 := rfl
@[simp] theorem State.stored_phase (s : State) (d r : Word) : (s.stored d r).phase = s.phase := rfl
@[simp] theorem State.stored_cc (s : State) (d r : Word) : (s.stored d r).cc = s.cc := rfl
@[simp] theorem State.stored_dq (s : State) (d r : Word) : (s.stored d r).dq = s.dq := rfl
@[simp] theorem State.stored_res (s : State) (d r : Word) : (s.stored d r).res = s.res := rfl
@[simp] theorem State.stored_params (s : State) (d r : Word) : (s.stored d r).params = s.params := rfl
@[simp] theorem State.stored_schedule (s : State) (d r : Word) : (s.stored d r).schedule = s.schedule := rfl
@[simp] theorem State.stored_replies (s : State) (d r : Word) : (s.stored d r).replies = s.replies := rfl

@[simp] theorem State.drawn_mem (s : State) (c : DrawCmd) (k : Color) : (s.drawn c k).mem = s.mem := rfl
@[simp] theorem State.drawn_pc (s : State) (c : DrawCmd) (k : Color) : (s.drawn c k).pc = s.pc + 1 := rfl
@[simp] theorem State.drawn_phase (s : State) (c : DrawCmd) (k : Color) : (s.drawn c k).phase = s.phase := rfl
@[simp] theorem State.drawn_cc (s : State) (c : DrawCmd) (k : Color) : (s.drawn c k).cc = k := rfl
@[simp] theorem State.drawn_dq (s : State) (c : DrawCmd) (k : Color) : (s.drawn c k).dq = s.dq ++ [c] := rfl
@[simp] theorem State.drawn_res (s : State) (c : DrawCmd) (k : Color) : (s.drawn c k).res = s.res := rfl
@[simp] theorem State.drawn_params (s : State) (c : DrawCmd) (k : Color) : (s.drawn c k).params = s.params := rfl
@[simp] theorem State.drawn_schedule (s : State) (c : DrawCmd) (k : Color) : (s.drawn c k).schedule = s.schedule := rfl
@[simp] theorem State.drawn_replies (s : State) (c : DrawCmd) (k : Color) : (s.drawn c k).replies = s.replies := rfl

/-- A store's frame: the slot holds the result, every other slot and field but `pc` is as before. -/
theorem State.stored_only {s : State} (h : s.mem.wf = true) (d r : Word) : StoresOnly s (s.stored d r) d r := by
  refine ⟨rfl, ?_, fun a ha => ?_⟩
  · simp [State.slot, Memory.read_write h]
  · simp [Memory.read_write h, ha]

/-- `toI32` is the spec's `to_i32` (R7). -/
theorem toInt_toI32 (z : Int) : (toI32 z).toInt = wrap32 z := by
  unfold toI32 wrap32
  rw [BitVec.toInt_ofInt, Int.bmod_def]
  split <;> omega

/-- An exact integer that is an `i32` is not changed by `to_i32` (R7). -/
theorem wrap32_of_mem {z : Int} (h : -2 ^ 31 ≤ z) (h' : z < 2 ^ 31) : wrap32 z = z := by
  unfold wrap32
  omega

/-- Every word is an `i32` (R7). -/
theorem toInt_bounds (x : Word) : -2 ^ 31 ≤ x.toInt ∧ x.toInt < 2 ^ 31 := by
  have h1 := BitVec.le_toInt x
  have h2 := BitVec.toInt_lt (x := x)
  constructor
  · simpa using h1
  · simpa using h2

theorem State.phase_of_running {s : State} : s.running = true ↔ s.phase = .runStart ∨ s.phase = .runTick := by
  unfold State.running
  cases s.phase <;> simp

/-- The end-of-run test (R95). -/
theorem State.runEnded_iff (s : State) :
    s.runEnded = true ↔ s.params.progLen ≤ s.pc ∨ (s.phase = .runStart ∧ s.pc = s.params.tickPc) := by
  simp [State.runEnded]

/-- The engine's move while a run goes on: the word at `pc` is run (R93, R94). -/
theorem State.engineMove_of_run {s : State} {w : InstrWord} (hr : s.running = true) (he : s.runEnded = false)
    (hw : s.params.imem[s.pc]? = some w) : s.engineMove = s.runWord w := by
  have : s.fetch = w := by simp [State.fetch, List.getD, hw]
  simp [State.engineMove, hr, he, this]

/-- What one turn is: the engine's move, waiting for a run, the end of waiting, or a transaction. -/
theorem step_turn (s : State) :
    (step s = s.engineMove ∧ (s.schedule = [] ∨ (∃ l, s.schedule = .await :: l ∧ s.running = true))) ∨
    (∃ l, s.schedule = .engine :: l ∧ step s = (s.withSchedule l).engineMove) ∨
    (∃ l, s.schedule = .await :: l ∧ s.running = false ∧ step s = .next (s.withSchedule l)) ∨
    (∃ t l, s.schedule = .issue t :: l ∧ step s = (s.withSchedule l).issue t) := by
  unfold step State.takeTurn
  rcases h : s.schedule with _ | ⟨u, l⟩
  · exact .inl ⟨rfl, .inl rfl⟩
  · cases u with
    | engine => exact .inr (.inl ⟨l, rfl, rfl⟩)
    | await =>
      cases hr : s.running with
      | true => exact .inl ⟨by simp, .inr ⟨l, rfl, rfl⟩⟩
      | false => exact .inr (.inr (.inl ⟨l, rfl, rfl, by simp⟩))
    | issue t => exact .inr (.inr (.inr ⟨t, l, rfl, rfl⟩))

/-- When it is the engine's turn the step is the engine's move, its turn used up. -/
theorem step_of_engineTurn {s : State} (h : EngineTurn s) : step s = s.turnTaken.engineMove := by
  unfold step State.takeTurn State.turnTaken
  rcases hs : s.schedule with _ | ⟨u, l⟩
  · simp
  · cases u with
    | engine => simp [State.withSchedule]
    | await =>
      have hr : s.running = true := by simpa [EngineTurn, hs] using h
      simp [hr]
    | issue t => simp [EngineTurn, hs] at h

/-- An issued transaction is performed when its phase enables it and refused when not (R89, R90). -/
theorem State.issue_eq (s : State) (t : Transaction) :
    s.issue t = if t.enabled s.phase then .next (s.perform t) else .refused .transactionNotEnabled := rfl

end Sys2Proof.Machine
end

