-- ==== Sys2Proof/Laws/Exec.lean ====
section
/-! SUPPORT. Everything an instruction can do, and everything a step can do, said once. -/

namespace Sys2Proof.Machine

open Sys2Proof

/-- What an instruction does when it raises no fault. -/
inductive Effect (i : Instr) (s : State) : Prop
  | stores (d r : Word) (hd : i.dest = some d) (hv : s.validAddr d) (h : exec i s = .next (s.stored d r))
  | jumps (t : Word) (c : Operand) (hi : i = .jmp t c) (h : exec i s = .next (s.jumpTo t.toNat))
  | advances (t : Word) (c : Operand) (hi : i = .jmp t c) (h : exec i s = .next s.advance)
  | draws (c : DrawCmd) (col : Color) (hi : i.draws = true) (hd : i.dest = none)
      (hc : i.opcode ≠ .color → col = s.cc) (h : exec i s = s.emit c col)

/-- An instruction takes a fault, or has its effect. -/
def Ends (i : Instr) (s : State) : Prop :=
  (∃ k, firstFault i s = some k ∧ exec i s = .next (s.takeFault k i.opcode.number)) ∨
  (firstFault i s = none ∧ Effect i s)

theorem ends_compute1 {i : Instr} {s : State} (o : Opcode) (d : Word) (a : Operand) (f : Word → Word)
    (hs : i.sources = [a]) (hdv : i.divisor = none) (hd : i.dest = some d) (ho : i.opcode = o)
    (he : exec i s = s.compute1 o d a f) : Ends i s := by
  subst ho
  rw [State.compute1_eq] at he
  by_cases ha : a.inRange s.params.memSize = true
  · rw [if_pos ha, State.store_eq] at he
    by_cases hv : addrBelow s.params.memSize d
    · rw [if_pos hv] at he
      exact .inr ⟨by simp [firstFault, hs, hdv, hd, ha, hv], .stores d _ hd hv he⟩
    · rw [if_neg hv] at he
      exact .inl ⟨.outOfBounds, by simp [firstFault, hs, hdv, hd, ha, hv], he⟩
  · rw [if_neg ha] at he
    exact .inl ⟨.outOfBounds, by simp [firstFault, hs, ha], he⟩

/-- `f` raises nothing but DivisionByZero, and that exactly when the instruction's divisor, its second source, is 0. -/
def RaisesOnlyOnDivisor (i : Instr) (b : Operand) (f : Word → Word → Except FaultKind Word) : Prop :=
  (i.divisor = none ∧ ∀ x y, ∃ r, f x y = .ok r) ∨
  (i.divisor = some b ∧ ∀ x y, if y = 0 then f x y = .error .divisionByZero else ∃ r, f x y = .ok r)

theorem ends_compute2 {i : Instr} {s : State} (o : Opcode) (d : Word) (a b : Operand)
    (f : Word → Word → Except FaultKind Word) (hs : i.sources = [a, b]) (hf : RaisesOnlyOnDivisor i b f)
    (hd : i.dest = some d) (ho : i.opcode = o) (he : exec i s = s.compute2 o d a b f) : Ends i s := by
  subst ho
  rw [State.compute2_eq] at he
  by_cases hab : a.inRange s.params.memSize = true ∧ b.inRange s.params.memSize = true
  · rw [if_pos hab] at he
    obtain ⟨ha, hb⟩ := hab
    have ok : ∀ r, f (s.valueOf a) (s.valueOf b) = .ok r →
        (i.divisor.any fun b => decide (s.valueOf b = 0)) = false → Ends i s := by
      intro r hr hz
      rw [hr] at he
      simp only [State.store_eq] at he
      by_cases hv : addrBelow s.params.memSize d
      · rw [if_pos hv] at he
        exact .inr ⟨by unfold firstFault; rw [hz]; simp [hs, hd, ha, hb, hv], .stores d _ hd hv he⟩
      · rw [if_neg hv] at he
        exact .inl ⟨.outOfBounds, by unfold firstFault; rw [hz]; simp [hs, hd, ha, hb, hv], he⟩
    rcases hf with ⟨hn, hf⟩ | ⟨hn, hf⟩
    · obtain ⟨r, hr⟩ := hf (s.valueOf a) (s.valueOf b)
      exact ok r hr (by simp [hn])
    · have hf := hf (s.valueOf a) (s.valueOf b)
      by_cases hz : s.valueOf b = 0
      · rw [if_pos hz] at hf
        rw [hf] at he
        exact .inl ⟨.divisionByZero, by simp [firstFault, hs, hn, ha, hb, hz], he⟩
      · rw [if_neg hz] at hf
        obtain ⟨r, hr⟩ := hf
        exact ok r hr (by rw [hn]; exact decide_eq_false hz)
  · rw [if_neg hab] at he
    refine .inl ⟨.outOfBounds, ?_, he⟩
    have : (i.sources.any fun a => !a.inRange s.params.memSize) = true := by
      by_contra h
      simp [hs] at h
      exact hab h
    simp [firstFault, this]

/-- An instruction without destination and divisor that reads its sources first. -/
theorem ends_reading {i : Instr} {s : State} (hd : i.dest = none) (hv : i.divisor = none)
    (bad : ¬ (∀ a ∈ i.sources, s.readable a) → exec i s = s.raise i.opcode .outOfBounds)
    (good : (∀ a ∈ i.sources, s.readable a) → Effect i s) : Ends i s := by
  by_cases h : ∀ a ∈ i.sources, s.readable a
  · refine .inr ⟨?_, good h⟩
    have : (i.sources.any fun a => !a.inRange s.params.memSize) = false := by simpa using h
    simp [firstFault, this, hd, hv]
  · refine .inl ⟨.outOfBounds, ?_, bad h⟩
    have : (i.sources.any fun a => !a.inRange s.params.memSize) = true := by simpa using h
    simp [firstFault, this]

/-- Everything an instruction can do. -/
theorem exec_ends (i : Instr) (s : State) : Ends i s := by
  cases i with
  | mov d a => exact ends_compute1 .mov d a id rfl rfl rfl rfl rfl
  | not d a => exact ends_compute1 .not d a notWord rfl rfl rfl rfl rfl
  | add d a b => exact ends_compute2 .add d a b _ rfl (.inl ⟨rfl, fun _ _ => ⟨_, rfl⟩⟩) rfl rfl rfl
  | sub d a b => exact ends_compute2 .sub d a b _ rfl (.inl ⟨rfl, fun _ _ => ⟨_, rfl⟩⟩) rfl rfl rfl
  | mul d a b => exact ends_compute2 .mul d a b _ rfl (.inl ⟨rfl, fun _ _ => ⟨_, rfl⟩⟩) rfl rfl rfl
  | less d a b => exact ends_compute2 .less d a b _ rfl (.inl ⟨rfl, fun _ _ => ⟨_, rfl⟩⟩) rfl rfl rfl
  | equal d a b => exact ends_compute2 .equal d a b _ rfl (.inl ⟨rfl, fun _ _ => ⟨_, rfl⟩⟩) rfl rfl rfl
  | div d a b =>
    refine ends_compute2 .div d a b _ rfl (.inr ⟨rfl, fun x y => ?_⟩) rfl rfl rfl
    unfold divWord
    split
    · rfl
    · split <;> exact ⟨_, rfl⟩
  | mod d a b =>
    refine ends_compute2 .mod d a b _ rfl (.inr ⟨rfl, fun x y => ?_⟩) rfl rfl rfl
    unfold modWord
    split
    · rfl
    · exact ⟨_, rfl⟩
  | jmp t c =>
    refine ends_reading rfl rfl (fun h => ?_) (fun h => ?_)
    · exact (execJmp_eq t c s).trans (if_neg (by simpa [Instr.sources] using h))
    · have hj := (execJmp_eq t c s).trans (if_pos (by simpa [Instr.sources] using h))
      by_cases h0 : s.valueOf c ≠ 0
      · exact .jumps t c rfl (by rw [if_pos h0] at hj; exact hj)
      · exact .advances t c rfl (by rw [if_neg h0] at hj; exact hj)
  | color r g b =>
    refine ends_reading rfl rfl (fun h => ?_) (fun h => ?_)
    · exact (execColor_eq r g b s).trans (if_neg (by simpa [Instr.sources] using h))
    · exact .draws (.setColor (s.valueOf r) (s.valueOf g) (s.valueOf b))
        ⟨lowByte (s.valueOf r), lowByte (s.valueOf g), lowByte (s.valueOf b)⟩ rfl rfl (fun h => absurd rfl h)
        ((execColor_eq r g b s).trans (if_pos (by simpa [Instr.sources] using h)))
  | point x y =>
    refine ends_reading rfl rfl (fun h => ?_) (fun h => .draws (.point (s.valueOf x) (s.valueOf y)) s.cc rfl rfl (fun _ => rfl) ?_)
    · exact (State.draw2_eq s .point x y .point).trans (if_neg (by simpa [Instr.sources] using h))
    · exact (State.draw2_eq s .point x y .point).trans (if_pos (by simpa [Instr.sources] using h))
  | line x1 y1 x2 y2 =>
    refine ends_reading rfl rfl (fun h => ?_) (fun h =>
      .draws (.line (s.valueOf x1) (s.valueOf y1) (s.valueOf x2) (s.valueOf y2)) s.cc rfl rfl (fun _ => rfl) ?_)
    · exact (State.draw4_eq s .line x1 y1 x2 y2 .line).trans (if_neg (by simpa [Instr.sources] using h))
    · exact (State.draw4_eq s .line x1 y1 x2 y2 .line).trans (if_pos (by simpa [Instr.sources] using h))
  | rect x y w h =>
    refine ends_reading rfl rfl (fun g => ?_) (fun g =>
      .draws (.rect (s.valueOf x) (s.valueOf y) (s.valueOf w) (s.valueOf h)) s.cc rfl rfl (fun _ => rfl) ?_)
    · exact (State.draw4_eq s .rect x y w h .rect).trans (if_neg (by simpa [Instr.sources] using g))
    · exact (State.draw4_eq s .rect x y w h .rect).trans (if_pos (by simpa [Instr.sources] using g))

section turnTaken

variable (s : State)

@[simp] theorem State.turnTaken_mem : s.turnTaken.mem = s.mem := by unfold State.turnTaken; split <;> rfl
@[simp] theorem State.turnTaken_pc : s.turnTaken.pc = s.pc := by unfold State.turnTaken; split <;> rfl
@[simp] theorem State.turnTaken_phase : s.turnTaken.phase = s.phase := by unfold State.turnTaken; split <;> rfl
@[simp] theorem State.turnTaken_cc : s.turnTaken.cc = s.cc := by unfold State.turnTaken; split <;> rfl
@[simp] theorem State.turnTaken_dq : s.turnTaken.dq = s.dq := by unfold State.turnTaken; split <;> rfl
@[simp] theorem State.turnTaken_res : s.turnTaken.res = s.res := by unfold State.turnTaken; split <;> rfl
@[simp] theorem State.turnTaken_params : s.turnTaken.params = s.params := by unfold State.turnTaken; split <;> rfl
@[simp] theorem State.turnTaken_running : s.turnTaken.running = s.running := by simp [State.running]

end turnTaken

/-- Everything a step that goes on can be. -/
inductive Moves (s t : State) : Prop
  | idles (ht : EngineTurn s) (hr : s.running = false) (h : t = s.turnTaken)
  | ends (ht : EngineTurn s) (hr : s.running = true)
      (he : s.params.progLen ≤ s.pc ∨ (s.phase = .runStart ∧ s.pc = s.params.tickPc)) (h : t = s.turnTaken.endRun)
  | illegal (ht : EngineTurn s) (hr : s.running = true) (w : InstrWord) (hw : s.params.imem[s.pc]? = some w)
      (hd : ∃ e, decode w = .error e) (h : t = s.turnTaken.takeFault .illegalInstruction (opcodeField w))
  | runs (i : Instr) (ha : AboutToRun s i) (h : exec i s.turnTaken = .next t)
  | waits (l : List Turn) (hs : s.schedule = .await :: l) (hr : s.running = false) (h : t = s.withSchedule l)
  | issues (u : Transaction) (l : List Turn) (hs : s.schedule = .issue u :: l) (he : u.enabled s.phase = true)
      (h : t = (s.withSchedule l).perform u)

theorem engineTurn_of_not_issue {s : State} (h : ∀ u l, s.schedule ≠ .issue u :: l)
    (hw : ∀ l, s.schedule = .await :: l → s.running = true) : EngineTurn s := by
  rcases hs : s.schedule with _ | ⟨u, l⟩
  · exact .inl (by simp [hs])
  · cases u with
    | engine => exact .inr (.inl (by simp [hs]))
    | await => exact .inr (.inr ⟨by simp [hs], hw l hs⟩)
    | issue u => exact absurd hs (h u l)

/-- Every step that goes on is one of the moves. -/
theorem step_moves {s t : State} (h : step s = .next t) : Moves s t := by
  by_cases ht : EngineTurn s
  · rw [step_of_engineTurn ht] at h
    unfold State.engineMove at h
    by_cases hr : s.running = true
    · rw [State.turnTaken_running, if_pos hr] at h
      by_cases he : s.turnTaken.runEnded = true
      · rw [if_pos he] at h
        exact .ends ht hr (by simpa using (State.runEnded_iff _).1 he) (by simpa using h.symm)
      · rw [if_neg he] at h
        have he' := fun x => he ((State.runEnded_iff _).2 x)
        simp only [State.turnTaken_params, State.turnTaken_pc, State.turnTaken_phase, Params.progLen] at he'
        have hlt : s.pc < s.params.imem.length := by
          by_contra hn
          exact he' (.inl (Nat.le_of_not_lt hn))
        have hw : s.params.imem[s.pc]? = some s.turnTaken.fetch := by
          simp [State.fetch, List.getD, List.getElem?_eq_getElem hlt]
        unfold State.runWord at h
        split at h
        · rename_i e hd
          exact .illegal ht hr _ hw ⟨e, hd⟩ (by simpa using h.symm)
        · rename_i i hd
          refine .runs i ⟨ht, ?_, _, hw, hd⟩ h
          rcases State.phase_of_running.1 hr with hp | hp
          · exact .inr ⟨hp, fun hn => he' (.inr ⟨hp, hn⟩)⟩
          · exact .inl hp
    · rw [State.turnTaken_running, if_neg hr] at h
      exact .idles ht (by simpa using hr) (by simpa using h.symm)
  · rcases step_turn s with ⟨-, hs | ⟨l, hs, hr⟩⟩ | ⟨l, hs, -⟩ | ⟨l, hs, hr, h'⟩ | ⟨u, l, hs, h'⟩
    · exact absurd (.inl (by simp [hs])) ht
    · exact absurd (.inr (.inr ⟨by simp [hs], hr⟩)) ht
    · exact absurd (.inr (.inl (by simp [hs]))) ht
    · rw [h'] at h
      exact .waits l hs hr (by simpa using h.symm)
    · rw [h', State.issue_eq] at h
      split at h
      · rename_i he
        exact .issues u l hs he (by simpa using h.symm)
      · exact absurd h nofun

end Sys2Proof.Machine
end

