-- ==== Sys2Proof/Laws/PerInstr.lean ====
section
/-! SUPPORT. Facts about every instruction as syntax, one lemma per constructor. -/

namespace Sys2Proof.Laws.Header

open Sys2Proof

/-- The header of an instruction's word: its opcode number in `w[143:140]` and zero reserved bits (30_encoding.md R48, R50). -/
def Statement (i : Instr) : Prop :=
  opcodeBits i = i.opcode.number ∧ reservedBits i = 0
where
  opcodeBits (i : Instr) : BitVec 4 := (encode i).extractLsb' 140 4
  reservedBits (i : Instr) : BitVec 4 := (encode i).extractLsb' 128 4

theorem op_of_encode (i : Instr) : Statement.opcodeBits i = i.fields.op :=
  congrArg Fields.op (Fields.ofWord_toWord i.fields)

theorem rsv_of_encode (i : Instr) : Statement.reservedBits i = i.fields.rsv :=
  congrArg Fields.rsv (Fields.ofWord_toWord i.fields)

theorem mov (d : Word) (a : Operand) : Statement (.mov d a) := ⟨op_of_encode _, rsv_of_encode _⟩
theorem add (d : Word) (a b : Operand) : Statement (.add d a b) := ⟨op_of_encode _, rsv_of_encode _⟩
theorem sub (d : Word) (a b : Operand) : Statement (.sub d a b) := ⟨op_of_encode _, rsv_of_encode _⟩
theorem mul (d : Word) (a b : Operand) : Statement (.mul d a b) := ⟨op_of_encode _, rsv_of_encode _⟩
theorem div (d : Word) (a b : Operand) : Statement (.div d a b) := ⟨op_of_encode _, rsv_of_encode _⟩
theorem mod (d : Word) (a b : Operand) : Statement (.mod d a b) := ⟨op_of_encode _, rsv_of_encode _⟩
theorem less (d : Word) (a b : Operand) : Statement (.less d a b) := ⟨op_of_encode _, rsv_of_encode _⟩
theorem equal (d : Word) (a b : Operand) : Statement (.equal d a b) := ⟨op_of_encode _, rsv_of_encode _⟩
theorem not (d : Word) (a : Operand) : Statement (.not d a) := ⟨op_of_encode _, rsv_of_encode _⟩
theorem jmp (t : Word) (c : Operand) : Statement (.jmp t c) := ⟨op_of_encode _, rsv_of_encode _⟩
theorem color (r g b : Operand) : Statement (.color r g b) := ⟨op_of_encode _, rsv_of_encode _⟩
theorem point (x y : Operand) : Statement (.point x y) := ⟨op_of_encode _, rsv_of_encode _⟩
theorem line (x1 y1 x2 y2 : Operand) : Statement (.line x1 y1 x2 y2) := ⟨op_of_encode _, rsv_of_encode _⟩
theorem rect (x y w h : Operand) : Statement (.rect x y w h) := ⟨op_of_encode _, rsv_of_encode _⟩

end Sys2Proof.Laws.Header
end

