-- ==== Sys2Proof/Tests/Slice0.lean ====
section
/-! SUPPORT. Tests of single steps, and witnesses for the hypotheses of the obligations. Expected values come from
spec/95_test_vectors.md: V and W are its vectors, S its host transactions, P its programs. -/

namespace Sys2Proof.Tests

open Sys2Proof Sys2Proof.Machine

/-! ### Helpers -/

/-- A tick run about to fetch index 0 of a program of 32 slots. -/
def running (imem : List InstrWord) (mem : Memory) : State :=
  { State.reset with mem := mem, phase := .runTick, params := { State.reset.params with imem := imem } }

/-- The state an outcome goes on to. -/
def next? : Result → Option State
  | .next s => some s
  | .fault _ => none
  | .refused _ => none

/-- Whether the outcome is the refusal of an out-of-phase transaction. -/
def refused : Result → Bool
  | .next _ => false
  | .fault _ => false
  | .refused r => decide (r = .transactionNotEnabled)

/-- One step of the one-word program `w`. -/
def after (w : InstrWord) (mem : Memory) : Option State := next? (step (running [w] mem))

/-- Memory and pc after an instruction that went on. -/
def stored (w : InstrWord) (mem : Memory) : Option (Memory × Nat × Phase) :=
  (after w mem).map fun s => (s.mem, s.pc, s.phase)

/-- The queue, the colour and pc after an instruction that went on. -/
def drawn (w : InstrWord) (mem : Memory) : Option (List DrawCmd × Color × Nat) :=
  (after w mem).map fun s => (s.dq, s.cc, s.pc)

/-- The report, Memory and queue after an instruction that faulted. -/
def reported (w : InstrWord) (mem : Memory) : Option (RunResult × Memory × List DrawCmd × Phase) :=
  (after w mem).map fun s => (s.res, s.mem, s.dq, s.phase)

/-! ### Well-formed instructions: the one check, at its boundary -/

theorem test_wf_largest_target : (Instr.jmp 0x7FFFFFFF (.imm 1)).wf = true := by decide

theorem test_wf_refuses_negative_target : (Instr.jmp 0x80000000 (.imm 1)).wf = false := by decide

theorem test_wf_accepts_any_operand : (Instr.mov 0xFFFFFFFF (.addr 0x80000000)).wf = true := by decide

/-! ### Decoding: words written out from the encodings (section 2.3 of the vectors, and W1 to W22) -/

theorem test_decode_mov : decode 0x0A000000000D000000020000000000000000#144 = .ok (.mov 13 (.addr 2)) := by decide

theorem test_decode_add :
    decode 0x1940000000007FFFFFFF0000000100000000#144 = .ok (.add 0 (.imm 0x7FFFFFFF) (.imm 1)) := by decide

theorem test_decode_sub : decode 0x29400000000D000000000000000100000000#144 = .ok (.sub 13 (.imm 0) (.imm 1)) := by decide

theorem test_decode_mul :
    decode 0x39400000000D000100000001000000000000#144 = .ok (.mul 13 (.imm 65536) (.imm 65536)) := by decide

theorem test_decode_div : decode 0x49400000000DFFFFFFF90000000200000000#144 = .ok (.div 13 (.imm (-7)) (.imm 2)) := by decide

theorem test_decode_mod : decode 0x594000000000FFFFFFF90000000200000000#144 = .ok (.mod 0 (.imm (-7)) (.imm 2)) := by decide

theorem test_decode_less : decode 0x6A40000000140000000D0000000500000000#144 = .ok (.less 20 (.addr 13) (.imm 5)) := by decide

theorem test_decode_equal :
    decode 0x7A80000000140000000D0000000E00000000#144 = .ok (.equal 20 (.addr 13) (.addr 14)) := by decide

theorem test_decode_not : decode 0x8A000000000D0000000D0000000000000000#144 = .ok (.not 13 (.addr 13)) := by decide

theorem test_decode_jmp : decode 0x9E0000000006000000020000000000000000#144 = .ok (.jmp 6 (.addr 2)) := by decide

theorem test_decode_color :
    decode 0xA540000000FF000000000000000000000000#144 = .ok (.color (.imm 255) (.imm 0) (.imm 0)) := by decide

theorem test_decode_point :
    decode 0xB50000000001000000010000000000000000#144 = .ok (.point (.imm 1) (.imm 1)) := by decide

theorem test_decode_line :
    decode 0xC5A00000000000000000000000090000000A#144 = .ok (.line (.imm 0) (.imm 0) (.addr 9) (.addr 10)) := by decide

theorem test_decode_rect :
    decode 0xDA500000000D0000000E0000000800000008#144 = .ok (.rect (.addr 13) (.addr 14) (.imm 8) (.imm 8)) := by decide

/-- W1, W2, W19: opcodes 14 and 15. -/
theorem test_decode_class1 : decode 0xF00000000000000000000000000000000000#144 = .error .unknownOpcode ∧
    decode 0xE00000000000000000000000000000000000#144 = .error .unknownOpcode ∧
    decode 0xFFFFFFFFFFFFFFFFFFFFFFFFFFFFFFFFFFFF#144 = .error .unknownOpcode := by decide

/-- W3, W4: reserved bits. -/
theorem test_decode_class2 : decode 0x09010000000D000000050000000000000000#144 = .error .reservedBits ∧
    decode 0x09080000000D000000050000000000000000#144 = .error .reservedBits := by decide

/-- W5, W7, W8, W10, W18: kinds a role does not accept. -/
theorem test_decode_class3 : decode 0x05000000000D000000050000000000000000#144 = .error .kindMismatch ∧
    decode 0x1B400000000D000000010000000100000000#144 = .error .kindMismatch ∧
    decode 0x19000000000D000000010000000000000000#144 = .error .kindMismatch ∧
    decode 0x990000000000000000010000000000000000#144 = .error .kindMismatch ∧
    decode 0x000000000000000000000000000000000000#144 = .error .kindMismatch := by decide

/-- W12, W13: an operand in an unused slot. -/
theorem test_decode_class4 : decode 0x09400000000D000000050000000000000000#144 = .error .extraOperand ∧
    decode 0xA55000000001000000020000000300000000#144 = .error .extraOperand := by decide

/-- W14, W15: a value in an unused slot. -/
theorem test_decode_class5 : decode 0x09000000000D000000050000000000000007#144 = .error .unusedValue ∧
    decode 0x89000000000D000000050000000100000000#144 = .error .unusedValue := by decide

/-- W16, W17: negative targets; W22: the largest target. -/
theorem test_decode_class6 : decode 0x9D0080000000000000010000000000000000#144 = .error .negativeTarget ∧
    decode 0x9D00FFFFFFFF000000000000000000000000#144 = .error .negativeTarget ∧
    decode 0x9D007FFFFFFF000000000000000000000000#144 = .ok (.jmp 0x7FFFFFFF (.imm 0)) := by decide

theorem test_table_word : decodeTableWord 144 0x0A000000000D000000020000000000000000 = some (.mov 13 (.addr 2)) := by decide

/-- The placed word runs as the first instruction after reset (V11). -/
theorem test_fetch_word :
    (next? (step (State.reset.withFetchWord 144 0x1940000000007FFFFFFF0000000100000000))).map (fun s => (s.mem, s.pc)) =
      some ([(0, 0x80000000)], 1) := by decide

/-! ### One step of each instruction -/

theorem test_mov_copies : stored 0x0A000000000D0000000E0000000000000000#144 [(14, -9)] =
    some ([(13, -9), (14, -9)], 1, .runTick) := by decide

/-- V10: both operands out of bounds. -/
theorem test_mov_out_of_bounds : reported 0x0A0000000020000000210000000000000000#144 [(13, 5)] =
    some (⟨.err, some .outOfBounds, 0, 0⟩, [(13, 5)], [], .ready) := by decide

/-- V11. -/
theorem test_add_wraps : stored 0x1940000000007FFFFFFF0000000100000000#144 [] =
    some ([(0, 0x80000000)], 1, .runTick) := by decide

/-- V14. -/
theorem test_add_own_slot : stored 0x1A800000000D0000000D0000000D00000000#144 [(13, 21)] =
    some ([(13, 42)], 1, .runTick) := by decide

/-- V19. -/
theorem test_sub_order : stored 0x29400000000D000000030000000500000000#144 [] =
    some ([(13, -2)], 1, .runTick) := by decide

/-- V21. -/
theorem test_sub_wraps : stored 0x29400000000D7FFFFFFFFFFFFFFF00000000#144 [] =
    some ([(13, 0x80000000)], 1, .runTick) := by decide

/-- V25: the product wraps to 0, which leaves no entry. -/
theorem test_mul_wraps_to_zero : stored 0x39400000000D000100000001000000000000#144 [(13, 5)] =
    some ([], 1, .runTick) := by decide

/-- V26. -/
theorem test_mul_wraps : stored 0x39400000000D0000B5050000B50500000000#144 [] =
    some ([(13, -2147479015)], 1, .runTick) := by decide

/-- V33. -/
theorem test_div_truncates : stored 0x49400000000DFFFFFFF90000000200000000#144 [] =
    some ([(13, -3)], 1, .runTick) := by decide

/-- V46: the zero divisor comes before the destination. -/
theorem test_div_zero_first : reported 0x494000000063000000010000000000000000#144 [] =
    some (⟨.err, some .divisionByZero, 0, 4⟩, [], [], .ready) := by decide

/-- V49. -/
theorem test_mod_sign : stored 0x594000000000FFFFFFF90000000200000000#144 [] =
    some ([(0, -1)], 1, .runTick) := by decide

/-- V58. -/
theorem test_mod_overflow_is_zero : stored 0x59400000000D80000000FFFFFFFF00000000#144 [(13, 5)] =
    some ([], 1, .runTick) := by decide

/-- V66. -/
theorem test_less_signed : stored 0x69400000000DFFFFFFFF0000000000000000#144 [] =
    some ([(13, 1)], 1, .runTick) := by decide

/-- V65. -/
theorem test_less_strict : stored 0x69400000000D000000020000000200000000#144 [(13, 5)] =
    some ([], 1, .runTick) := by decide

/-- V77. -/
theorem test_equal : stored 0x7A80000000140000000D0000000E00000000#144 [(13, 4), (14, 4)] =
    some ([(13, 4), (14, 4), (20, 1)], 1, .runTick) := by decide

/-- V75. -/
theorem test_equal_not : stored 0x79400000000D800000007FFFFFFF00000000#144 [(13, 5)] =
    some ([], 1, .runTick) := by decide

/-- V81. -/
theorem test_not_is_logical : stored 0x89000000000D000000050000000000000000#144 [(13, 5)] =
    some ([], 1, .runTick) := by decide

/-- V84. -/
theorem test_not_zero : stored 0x8A000000000D0000000D0000000000000000#144 [] =
    some ([(13, 1)], 1, .runTick) := by decide

/-- V89: a negative condition is true. -/
theorem test_jmp_taken : stored 0x9D0000000007FFFFFFFF0000000000000000#144 [] = some ([], 7, .runTick) := by decide

/-- V91. -/
theorem test_jmp_not_taken : stored 0x9E00000000050000000D0000000000000000#144 [] = some ([], 1, .runTick) := by decide

/-- V95. -/
theorem test_color_low_bytes : drawn 0xA54000000100FFFFFFFF000001FF00000000#144 [] =
    some ([.setColor 256 (-1) 511], ⟨0, 255, 255⟩, 1) := by decide

/-- V97. -/
theorem test_color_out_of_bounds : reported 0xA58000000000000000000000002000000000#144 [] =
    some (⟨.err, some .outOfBounds, 0, 10⟩, [], [], .ready) := by decide

/-- V101. -/
theorem test_point : drawn 0xBA0000000002000000030000000000000000#144 [(2, 1)] =
    some ([.point 1 0], .black, 1) := by decide

/-- V102. -/
theorem test_point_out_of_bounds : reported 0xB60000000001000000280000000000000000#144 [] =
    some (⟨.err, some .outOfBounds, 0, 11⟩, [], [], .ready) := by decide

/-- V103. -/
theorem test_line : drawn 0xC5A00000000000000000000000090000000A#144 [(9, 320), (10, 240)] =
    some ([.line 0 0 320 240], .black, 1) := by decide

/-- V107. -/
theorem test_line_out_of_bounds : reported 0xC56000000000000000000000000000000020#144 [] =
    some (⟨.err, some .outOfBounds, 0, 12⟩, [], [], .ready) := by decide

/-- V108. -/
theorem test_rect : drawn 0xDA500000000D0000000E0000000800000008#144 [(13, 10), (14, 20)] =
    some ([.rect 10 20 8 8], .black, 1) := by decide

/-- V109. -/
theorem test_rect_negative : drawn 0xD5500000000000000000FFFFFFFC00000000#144 [] =
    some ([.rect 0 0 (-4) 0], .black, 1) := by decide

/-! ### Ill-formed words, the end of a run, the host -/

/-- W2: the report holds the raw opcode field. -/
theorem test_illegal_word : reported 0xE00000000000000000000000000000000000#144 [(13, 1)] =
    some (⟨.err, some .illegalInstruction, 0, 14⟩, [(13, 1)], [], .ready) := by decide

/-- S4: a tick block with no instruction. -/
theorem test_empty_tick : (next? (step (running [] []))).map (fun s => (s.phase, s.pc, s.res)) =
    some (.ready, 0, .success) := by decide

/-- S3: an empty start block. -/
theorem test_empty_start :
    (next? (step { running [0x09000000000D000000050000000000000000#144] [] with phase := .runStart })).map
      (fun s => (s.phase, s.pc, s.res, s.mem)) = some (.ready, 0, .success, []) := by decide

/-- A host's turn in a state with one slot set. -/
def hostTurn (p : Phase) (t : Transaction) : State :=
  { State.reset with phase := p, mem := [(31, 7)], schedule := [.issue t] }

/-- S2: run_start without a start label. -/
theorem test_run_start : (next? (step (hostTurn .idle .runStart))).map (fun s => (s.phase, s.pc, s.res)) =
    some (.ready, 0, .success) := by decide

/-- S6: host_read of the last slot. -/
theorem test_host_read : (next? (step (hostTurn .ready (.hostRead 31)))).map (fun s => (s.replies, s.mem)) =
    some ([.value 7], [(31, 7)]) := by decide

/-- S7: host_write out of bounds fails as an operation. -/
theorem test_host_write_out_of_bounds :
    (next? (step (hostTurn .ready (.hostWrite 32 7)))).map (fun s => (s.replies, s.mem, s.res.status)) =
      some ([.outOfBounds], [(31, 7)], .none) := by decide

/-- S11, S12, S13: transactions out of phase. -/
theorem test_out_of_phase : refused (step (hostTurn .idle .runTick)) ∧ refused (step (hostTurn .ready .runStart)) ∧
    refused (step (hostTurn .runTick (.hostRead 0))) := by decide

/-- The draw command packings of section 2.5. -/
theorem test_pack : (DrawCmd.setColor 256 (-1) 511).pack = 0x000000100FFFFFFFF000001FF00000000#130 ∧
    (DrawCmd.point (-5) 100000).pack = 0x1FFFFFFFB000186A00000000000000000#130 ∧
    (DrawCmd.line 0 0 320 240).pack = 0x2000000000000000000000140000000F0#130 ∧
    (DrawCmd.rect 0 0 (-4) 0).pack = 0x30000000000000000FFFFFFFC00000000#130 := by decide

/-- The text of P6, with a blank line and a label after the last instruction. -/
def textP6 : List Char := ['t', 'i', 'c', 'k', ':', '\n', '\n', 'j', 'm', 'p', ' ', 'e', 'n', 'd', ' ', '0', '\n',
    'p', 'o', 'i', 'n', 't', ' ', '0', '\t', '0', '\n', 'e', 'n', 'd', ':']

theorem test_load : load textP6 = .ok ⟨[0x9D0000000002000000000000000000000000#144,
    0xB50000000000000000000000000000000000#144], 0, none⟩ := by decide

/-- X8 of the source's properties. -/
theorem test_load_without_tick : load ['m', 'o', 'v', ' ', '$', '1', '3', ' ', '-', '5'] = .error .missingTickLabel := by
  decide

/-! ### Witnesses: for each obligation with hypotheses, a concrete state and operands that meet them, each clause at a boundary
of its range. The theorem's name is `witness_` and the obligation's name, or says which obligations share it. -/

theorem witness_DecodeOfEncode : (Instr.jmp 0x7FFFFFFF (.addr 0xFFFFFFFF)).wf = true := by decide

theorem witness_EncodeOfDecode :
    decode 0x9D007FFFFFFF000000000000000000000000#144 = .ok (.jmp 0x7FFFFFFF (.imm 0)) := by decide

theorem witness_OpcodeMapRowsAreDisjoint :
    ∃ r ∈ opcodeMap, 0xDA500000000D0000000E0000000800000008#144 &&& r.mask = r.bits := by decide

theorem witness_PackedCommandDeterminesCommand :
    (DrawCmd.rect 1 2 3 4).pack = (DrawCmd.rect 1 2 3 4).pack := rfl

/-- A text whose `tick` label stands after its last instruction, and whose `start` label is at index 0. -/
theorem witness_LoadedProgramIsLegal :
    load ['s', 't', 'a', 'r', 't', ':', '\n', 'm', 'o', 'v', ' ', '$', '0', ' ', '1', '\n', 't', 'i', 'c', 'k', ':'] =
      .ok ⟨[0x090000000000000000010000000000000000#144], 1, some 0⟩ := by decide

/-- An instance with its entry points at the end of the program, a finite queue and a slot that does not start at 0. -/
def atTheEdge : Params where
  memSize := 32
  imem := [0x9D0000000000000000010000000000000000#144]
  tickPc := 1
  startValid := true
  startPc := 1
  memInit := [(31, 5)]
  dqDepth := some 1
  divOverflowResult := 7

theorem paramsOk_atTheEdge : ParamsOk atTheEdge := by
  constructor <;> decide

theorem witness_ConstructedInstanceMeetsInv : ParamsOk atTheEdge ∧
    (⟨[0#144], 1, some 1⟩ : Program).words.length < 2 ^ 31 ∧ (⟨[0#144], 1, some 1⟩ : Program).tick ≤ 1 ∧
    (∀ k, (⟨[0#144], 1, some 1⟩ : Program).start = some k → k ≤ 1) ∧ 2 ^ 31 - 1 < 2 ^ 31 :=
  ⟨paramsOk_atTheEdge, by decide, by decide, fun k h => by cases h; decide, by decide⟩

/-- A state in a tick run of the program `w` that meets the invariant. -/
theorem inv_running (w : InstrWord) : Inv (running [w] [(13, 1)]) where
  params :=
    { memSize_min := Nat.le_refl 32
      memSize_max := by show 32 < 2 ^ 31; decide
      progLen_max := by show 1 < 2 ^ 31; decide
      tick_le := Nat.zero_le _
      start_le := nofun
      init_wf := rfl
      init_below := rfl }
  mem_wf := rfl
  mem_below := rfl
  pc_max := by show 0 < 2 ^ 31; decide
  queue := fun n h => nomatch h
  res := ⟨rfl, rfl, rfl⟩
  phase := rfl

/-- `add $13 $13 $13`. -/
theorem witness_StepKeepsInv : Inv (running [0x1A800000000D0000000D0000000D00000000#144] [(13, 1)]) ∧
    ∃ t, step (running [0x1A800000000D0000000D0000000D00000000#144] [(13, 1)]) = .next t :=
  ⟨inv_running _, _, rfl⟩

/-- A tick run, and a start run at an index other than TICK_PC. -/
theorem witness_StepRunsTheDecodedInstruction :
    AboutToRun (running [0x1A800000000D0000000D0000000D00000000#144] []) (.add 13 (.addr 13) (.addr 13)) ∧
    AboutToRun { running [0x1A800000000D0000000D0000000D00000000#144] [] with
      phase := .runStart
      schedule := [.await]
      params := { State.reset.params with imem := [0x1A800000000D0000000D0000000D00000000#144], tickPc := 1 } }
      (.add 13 (.addr 13) (.addr 13)) :=
  ⟨⟨.inl rfl, .inl rfl, _, rfl, by decide⟩, ⟨.inr (.inr ⟨rfl, rfl⟩), .inr ⟨rfl, by decide⟩, _, rfl, by decide⟩⟩

/-- W1's word and the all-zero word. -/
theorem witness_IllFormedWordTakesIllegalInstruction :
    EngineTurn (running [0#144] []) ∧ (running [0#144] []).phase = .runTick ∧
    (running [0#144] []).params.imem[(running [0#144] []).pc]? = some 0#144 ∧ ¬ wellFormedWord 0#144 ∧
    ¬ wellFormedWord 0xF00000000000000000000000000000000000#144 :=
  ⟨.inl rfl, rfl, rfl, by simp [wellFormedWord, kindBits, sourceSlotOk],
    by simp [wellFormedWord, kindBits, sourceSlotOk]⟩

/-- pc at PROG_LEN, and a start run at TICK_PC. -/
theorem witness_RunEndsNormally :
    (EngineTurn (running [] []) ∧ (running [] []).running = true ∧
      (running [] []).params.imem.length ≤ (running [] []).pc) ∧
    (EngineTurn { running [0#144] [] with phase := .runStart } ∧
      ({ running [0#144] [] with phase := .runStart } : State).running = true ∧
      ({ running [0#144] [] with phase := .runStart } : State).pc = (running [0#144] []).params.tickPc) :=
  ⟨⟨.inl rfl, rfl, by decide⟩, .inl rfl, rfl, rfl⟩

theorem witness_IdleEngineKeepsState :
    (EngineTurn State.reset ∧ State.reset.phase = .idle) ∧
    (EngineTurn { State.reset with phase := .ready, schedule := [.engine] } ∧
      ({ State.reset with phase := .ready, schedule := [.engine] } : State).phase = .ready) :=
  ⟨⟨.inl rfl, rfl⟩, .inr (.inl rfl), rfl⟩

theorem witness_EngineNeverStops :
    EngineTurn (running [0#144] []) ∧ (running [0#144] []).params.dqDepth = none := ⟨.inl rfl, rfl⟩

/-- P6's remark: `jmp tick 1` at index 0. -/
theorem witness_SelfJumpRunsForever :
    (running [0x9D0000000000000000010000000000000000#144] []).schedule = [] ∧
    AboutToRun (running [0x9D0000000000000000010000000000000000#144] []) (.jmp 0 (.imm 1)) ∧
    (0 : Word).toNat = (running [0x9D0000000000000000010000000000000000#144] []).pc ∧ (1 : Word) ≠ 0 :=
  ⟨rfl, ⟨.inl rfl, .inl rfl, _, rfl, by decide⟩, rfl, by decide⟩

/-- With and without a start label, out of phase, and a step that leaves or enters IDLE. -/
theorem witness_RunStartCommand :
    (Issues (hostTurn .idle .runStart) .runStart ∧ (hostTurn .idle .runStart).phase = .idle ∧
      (hostTurn .idle .runStart).params.startValid = false) ∧
    (Issues { hostTurn .idle .runStart with params := atTheEdge } .runStart ∧ atTheEdge.startValid = true) ∧
    (Issues (hostTurn .ready .runStart) .runStart ∧ (hostTurn .ready .runStart).phase ≠ .idle) ∧
    (∃ t, step (hostTurn .idle .runStart) = .next t ∧ t.phase = .ready) ∧
    (∃ t, step (hostTurn .ready .reset) = .next t ∧ t.phase = .idle) :=
  ⟨⟨rfl, rfl, rfl⟩, ⟨rfl, rfl⟩, ⟨rfl, by decide⟩, ⟨_, rfl, rfl⟩, _, rfl, rfl⟩

theorem witness_RunTickCommand :
    (Issues (hostTurn .ready .runTick) .runTick ∧ (hostTurn .ready .runTick).phase = .ready) ∧
    (Issues (hostTurn .idle .runTick) .runTick ∧ (hostTurn .idle .runTick).phase ≠ .ready) :=
  ⟨⟨rfl, rfl⟩, rfl, by decide⟩

/-- A transaction on each side of the equivalence. -/
theorem witness_OutOfPhaseTransactionHasNoMove :
    Issues (hostTurn .runTick .readDraw) .readDraw ∧ step (hostTurn .runTick .readDraw) = .refused .transactionNotEnabled ∧
    Issues (hostTurn .runTick .reset) .reset ∧ step (hostTurn .runTick .reset) ≠ .refused .transactionNotEnabled :=
  ⟨rfl, rfl, rfl, nofun⟩

theorem witness_ResetTransaction : Issues (hostTurn .runTick .reset) .reset := rfl

/-- The first and the last slot, the slots just outside, and a run in progress. -/
theorem witness_HostAccess :
    (hostTurn .ready (.hostRead 31)).mem.wf = true ∧ (hostTurn .ready (.hostRead 31)).phase = .ready ∧
    (Issues (hostTurn .ready (.hostRead 31)) (.hostRead 31) ∧ (hostTurn .ready (.hostRead 31)).validAddr 31) ∧
    (Issues (hostTurn .ready (.hostWrite 0 1)) (.hostWrite 0 1) ∧ (hostTurn .ready (.hostWrite 0 1)).validAddr 0) ∧
    (Issues (hostTurn .ready (.hostRead (-1))) (.hostRead (-1)) ∧ ¬ (hostTurn .ready (.hostRead (-1))).validAddr (-1)) ∧
    (Issues (hostTurn .ready (.hostWrite 32 1)) (.hostWrite 32 1) ∧ ¬ (hostTurn .ready (.hostWrite 32 1)).validAddr 32) ∧
    ((hostTurn .runTick (.hostRead 0)).running = true ∧ Issues (hostTurn .runTick (.hostRead 0)) (.hostRead 0)) :=
  ⟨rfl, rfl, ⟨rfl, by decide⟩, ⟨rfl, by decide⟩, ⟨rfl, by decide⟩, ⟨rfl, by decide⟩, rfl, rfl⟩

theorem witness_HostReadsResultAndQueue :
    (hostTurn .ready .readResult).phase = .ready ∧ Issues (hostTurn .ready .readResult) .readResult ∧
    Issues (hostTurn .idle .readDraw) .readDraw ∧ (hostTurn .idle .readDraw).phase = .idle := ⟨rfl, rfl, rfl, rfl⟩

theorem witness_HostReadsBackItsWrite :
    State.reset.mem.wf = true ∧ State.reset.phase = .idle ∧ State.reset.validAddr 13 ∧
    ({ State.reset with schedule := [.issue (.hostWrite 13 0x80000000), .issue (.hostRead 13)] } : State).schedule =
      .issue (.hostWrite 13 0x80000000) :: .issue (.hostRead 13) :: [] := ⟨rfl, rfl, by decide, rfl⟩

/-- A step that changes Memory and pc; steps that change the colour and the queue; one that changes the phase and the result. -/
theorem witness_WritersOfEachPieceOfState :
    (∃ t, step (running [0x1940000000007FFFFFFF0000000100000000#144] []) = .next t ∧ t.mem ≠ [] ∧ t.pc ≠ 0) ∧
    (∃ t, step (running [0xA540000000FF00000000000000FF00000000#144] []) = .next t ∧ t.cc ≠ .black ∧ t.dq ≠ []) ∧
    (∃ t, step (running [] []) = .next t ∧ t.phase ≠ .runTick ∧ t.res ≠ .cleared) :=
  ⟨⟨_, rfl, by decide, by decide⟩, ⟨_, rfl, by decide, by decide⟩, _, rfl, by decide, by decide⟩

/-- The first and the last slot, and the addresses just outside. -/
theorem witness_MemoryPrimitives :
    State.reset.mem.wf = true ∧ (0 ≤ (0 : Word).toInt ∧ (0 : Word).toInt < (State.reset.params.memSize : Int)) ∧
    (0 ≤ (31 : Word).toInt ∧ (31 : Word).toInt < (State.reset.params.memSize : Int)) ∧
    (-1 : Word).toInt < 0 ∧ (State.reset.params.memSize : Int) ≤ (32 : Word).toInt := by decide

/-- V48 and V46 at the two places where clauses meet, V47, and no fault. -/
theorem witness_FirstFaultIsReported :
    firstFault (.div 13 (.addr 99) (.imm 0)) State.reset = some .outOfBounds ∧
    firstFault (.div 99 (.imm 1) (.imm 0)) State.reset = some .divisionByZero ∧
    firstFault (.div 99 (.imm 1) (.imm 1)) State.reset = some .outOfBounds ∧
    firstFault (.div 31 (.imm 1) (.imm 1)) State.reset = none ∧
    ∃ t, exec (.div 31 (.imm 1) (.imm 1)) State.reset = .next t :=
  ⟨by decide, by decide, by decide, by decide, _, rfl⟩

/-- V43. -/
theorem witness_FaultsArePrecise :
    EngineTurn (running [0x494000000000000000070000000000000000#144] []) ∧
    (running [0x494000000000000000070000000000000000#144] []).running = true ∧
    (running [0x494000000000000000070000000000000000#144] []).res.status = .none ∧
    ∃ t, step (running [0x494000000000000000070000000000000000#144] []) = .next t ∧ t.res.status = .err :=
  ⟨.inl rfl, rfl, rfl, _, rfl, rfl⟩

/-- V45's divisor in a slot that holds 0, and both sides of the equivalence. -/
theorem witness_DivisionByZeroOnlyFromZeroDivisor :
    (running [] []).running = true ∧ (Instr.div 13 (.imm 7) (.addr 14)).divisor = some (.addr 14) ∧
    (running [] []).valueOf (.addr 14) = 0 ∧ (∀ a ∈ (Instr.div 13 (.imm 7) (.addr 14)).sources, (running [] []).readable a) ∧
    exec (.div 13 (.imm 7) (.addr 14)) (running [] []) = .next ((running [] []).faulted .divisionByZero 4) :=
  ⟨rfl, rfl, rfl, by decide, rfl⟩

theorem witness_OutOfBoundsIgnoresData :
    (Instr.mov 32 (.imm 1)).divisor = none ∧ (running [] []).params.memSize = (running [] [(13, 1)]).params.memSize ∧
    (running [] []).res = .cleared ∧ (running [] [(13, 1)]).res = .cleared ∧
    ∃ t, exec (.mov 32 (.imm 1)) (running [] []) = .next t ∧ t.res.cause = some .outOfBounds :=
  ⟨rfl, rfl, rfl, rfl, _, rfl, rfl⟩

/-- `mov $31 1`, the last slot that every instance has. -/
theorem witness_AddressesBelowThirtyTwoNeverFault :
    Inv (running [0x09000000001F000000010000000000000000#144] [(13, 1)]) ∧
    (∀ w ∈ (running [0x09000000001F000000010000000000000000#144] [(13, 1)]).params.imem, ∀ i, decode w = .ok i →
      i.addrsBelow 32) ∧
    (running [0x09000000001F000000010000000000000000#144] [(13, 1)]).res.cause ≠ some .outOfBounds ∧
    ∃ t, step (running [0x09000000001F000000010000000000000000#144] [(13, 1)]) = .next t := by
  refine ⟨inv_running _, ?_, by decide, _, rfl⟩
  intro w hw i hi
  have hw' : w = 0x09000000001F000000010000000000000000#144 := by simpa [running] using hw
  subst hw'
  have hd : decode 0x09000000001F000000010000000000000000#144 = .ok (.mov 31 (.imm 1)) := by decide
  have : i = .mov 31 (.imm 1) := by simpa [hd] using hi.symm
  subst this
  exact ⟨by decide, fun d h => by cases h; decide⟩

/-- One instruction of each of the four shapes. -/
theorem witness_InstructionChangesOneSlotOrOneCommand :
    State.reset.mem.wf = true ∧
    (firstFault (.mov 31 (.imm 1)) State.reset = none ∧ ∃ t, exec (.mov 31 (.imm 1)) State.reset = .next t) ∧
    (firstFault (.point (.imm 1) (.addr 0)) State.reset = none ∧
      ∃ t, exec (.point (.imm 1) (.addr 0)) State.reset = .next t) ∧
    (firstFault (.color (.imm 1) (.imm 2) (.imm 3)) State.reset = none ∧
      ∃ t, exec (.color (.imm 1) (.imm 2) (.imm 3)) State.reset = .next t) ∧
    (firstFault (.jmp 0 (.imm 1)) State.reset = none ∧ ∃ t, exec (.jmp 0 (.imm 1)) State.reset = .next t) :=
  ⟨rfl, ⟨by decide, _, rfl⟩, ⟨by decide, _, rfl⟩, ⟨by decide, _, rfl⟩, by decide, _, rfl⟩

/-- The statement has no hypothesis; both sides of its equivalence hold at a queue that is just full, and fail one below. -/
theorem witness_DrawStopsExactlyAtFullQueue :
    exec (.point (.imm 1) (.imm 1)) { State.reset with params := atTheEdge, dq := [.point 0 0] } = .fault .drawQueueFull ∧
    exec (.point (.imm 1) (.imm 1)) { State.reset with params := atTheEdge } ≠ .fault .drawQueueFull :=
  ⟨rfl, nofun⟩

theorem witness_EngineOnlyAppendsToQueue :
    EngineTurn (running [0xB50000000001000000010000000000000000#144] []) ∧
    ∃ t, step (running [0xB50000000001000000010000000000000000#144] []) = .next t ∧ t.dq = [.point 1 1] :=
  ⟨.inl rfl, _, rfl, rfl⟩

/-- `MovCopiesToSlot` and `NotNegatesLogically`: the first and last slots, then each operand just out of bounds. -/
theorem witness_Mov_Not : State.reset.mem.wf = true ∧ State.reset.readable (.addr 0) ∧ State.reset.validAddr 31 ∧
    ¬ (State.reset.readable (.addr 32) ∧ State.reset.validAddr 31) ∧
    ¬ (State.reset.readable (.imm 1) ∧ State.reset.validAddr (-1)) := by decide

/-- `AddWrapsToSlot`, `SubWrapsToSlot`, `MulWrapsToSlot`, `LessComparesSigned` and `EqualComparesValues`: the destination also a
source, then each operand just out of bounds. -/
theorem witness_Add_Sub_Mul_Less_Equal :
    State.reset.mem.wf = true ∧ State.reset.readable (.addr 0) ∧ State.reset.readable (.addr 31) ∧ State.reset.validAddr 31 ∧
    ¬ (State.reset.readable (.addr 32) ∧ State.reset.readable (.imm 1) ∧ State.reset.validAddr 0) ∧
    ¬ (State.reset.readable (.imm 1) ∧ State.reset.readable (.addr (-1)) ∧ State.reset.validAddr 0) ∧
    ¬ (State.reset.readable (.imm 1) ∧ State.reset.readable (.imm 1) ∧ State.reset.validAddr 32) := by decide

/-- `DivTruncatesToSlot` and `ModFollowsDividend`: a quotient, the one overflow, a zero divisor, a source and then the
destination out of bounds. -/
theorem witness_Div_Mod :
    State.reset.mem.wf = true ∧ State.reset.readable (.imm (-7)) ∧ State.reset.readable (.imm 2) ∧ State.reset.validAddr 31 ∧
    State.reset.valueOf (.imm 2) ≠ 0 ∧
    ((State.reset.valueOf (.imm 0x80000000)).toInt = -2147483648 ∧ (State.reset.valueOf (.imm (-1))).toInt = -1) ∧
    (State.reset.readable (.addr 0) ∧ State.reset.valueOf (.addr 0) = 0) ∧
    ¬ (State.reset.readable (.addr 32) ∧ State.reset.readable (.imm 0)) ∧ ¬ State.reset.validAddr 99 := by decide

/-- `JmpSetsOrAdvancesPc`: a negative condition, a zero one, one out of bounds, and a jump to PROG_LEN about to run. -/
theorem witness_JmpSetsOrAdvancesPc :
    (State.reset.readable (.imm (-1)) ∧ (State.reset.valueOf (.imm (-1))).toInt ≠ 0) ∧
    (State.reset.readable (.addr 0) ∧ (State.reset.valueOf (.addr 0)).toInt = 0) ∧ ¬ State.reset.readable (.addr 32) ∧
    (running [0x9D0000000001000000010000000000000000#144] []).schedule = [] ∧
    AboutToRun (running [0x9D0000000001000000010000000000000000#144] []) (.jmp 1 (.imm 1)) ∧
    (running [0x9D0000000001000000010000000000000000#144] []).params.imem.length ≤ (1 : Word).toNat :=
  ⟨by decide, by decide, by decide, rfl, ⟨.inl rfl, .inl rfl, _, rfl, by decide⟩, by decide⟩

/-- `ColorAppendsAndSetsColour`, `PointAppends`, `LineAppends` and `RectAppends`: operands in range, an unbounded queue and one
with room for one more, then each operand out of bounds. -/
theorem witness_Color_Point_Line_Rect :
    State.reset.readable (.imm (-1)) ∧ State.reset.readable (.addr 31) ∧ State.reset.QueueHasRoom ∧
    State.QueueHasRoom { State.reset with params := atTheEdge } ∧
    ¬ (State.reset.readable (.addr 32) ∧ State.reset.readable (.imm 0)) ∧
    ¬ (State.reset.readable (.imm 0) ∧ State.reset.readable (.addr (-1))) :=
  ⟨by decide, by decide, (fun _ h => nomatch h), (fun n h => by cases h; decide), by decide, by decide⟩

theorem witness_NoOpsChangeOnlyPc : State.reset.mem.wf = true ∧ State.reset.validAddr 31 := by decide

theorem witness_DivAndModAgree :
    State.reset.mem.wf = true ∧ State.reset.readable (.imm (-7)) ∧ State.reset.readable (.imm 2) ∧ State.reset.validAddr 0 ∧
    State.reset.validAddr 31 ∧ State.reset.valueOf (.imm 2) ≠ 0 ∧
    ¬ ((State.reset.valueOf (.imm (-7))).toInt = -2147483648 ∧ (State.reset.valueOf (.imm 2)).toInt = -1) := by decide

theorem witness_NotTwiceNormalises : (hostTurn .idle .reset).mem.wf = true ∧ (hostTurn .idle .reset).validAddr 31 ∧
    (hostTurn .idle .reset).slot 31 ≠ 0 := by decide

theorem witness_LessThenNotIsAtMost :
    State.reset.mem.wf = true ∧ State.reset.readable (.imm 2) ∧ State.reset.readable (.addr 31) ∧ State.reset.validAddr 31 := by
  decide

end Sys2Proof.Tests
end

section
/-! SUPPORT. `MemRead` and `MemWrite`, said once for every address, and the statements about them. -/

namespace Sys2Proof.Machine

open Sys2Proof

/-- `MemRead` (R9): the slot, or `OutOfBounds`. -/
theorem State.memRead_eq (s : State) (a : Word) :
    s.memRead a = if s.validAddr a then .ok (s.slot a) else .error .outOfBounds := by
  simp only [State.memRead, State.inBounds_iff, State.slot]

/-- `MemWrite` (R9): the one slot is written, or `OutOfBounds`. -/
theorem State.memWrite_eq (s : State) (a v : Word) :
    s.memWrite a v =
      if s.validAddr a then .ok { s with mem := s.mem.write a.toInt.toNat v } else .error .outOfBounds := by
  simp only [State.memWrite, State.inBounds_iff]

/-- The bounds check fails exactly below 0 and from `MEM_SIZE` on (R100). -/
theorem State.not_validAddr_iff (s : State) (a : Word) :
    ¬ s.validAddr a ↔ a.toInt < 0 ∨ (s.params.memSize : Int) ≤ a.toInt := by
  rw [not_and_or, not_le, not_lt]

/-- An in-bounds `MemWrite` completes; `MemRead` gives the value back, and nothing but that slot changed (R9, R38). -/
theorem State.memWrite_of_validAddr {s : State} {a : Word} (hm : s.mem.wf = true) (ha : s.validAddr a) (v : Word) :
    ∃ t, s.memWrite a v = .ok t ∧ t = { s with mem := t.mem } ∧ t.memRead a = .ok v ∧
      ∀ b : Nat, b ≠ a.toInt.toNat → t.mem.read b = s.mem.read b := by
  refine ⟨_, (s.memWrite_eq a v).trans (if_pos ha), rfl, ?readsBack, fun b hb => ?otherSlots⟩
  case readsBack =>
    rw [State.memRead_eq, if_pos ha, State.slot, Memory.read_write hm, if_pos rfl]
  case otherSlots => rw [Memory.read_write hm, if_neg hb]

/-- Settles O27, by the bounds check: in bounds Memory's read-after-write law gives the value and the frame, out of bounds
both primitives stop at the check. -/
theorem memoryPrimitives : Obligations.MemoryPrimitives := by
  intro s a v hm
  refine ⟨fun hin => ?inBounds, fun hout => ?outOfBounds, rfl, rfl⟩
  case inBounds =>
    have ha : s.validAddr a := hin
    exact ⟨(s.memRead_eq a).trans (if_pos ha), State.memWrite_of_validAddr hm ha v⟩
  case outOfBounds =>
    have ha : ¬ s.validAddr a := (s.not_validAddr_iff a).2 hout
    exact ⟨(s.memRead_eq a).trans (if_neg ha), (s.memWrite_eq a v).trans (if_neg ha)⟩

end Sys2Proof.Machine
end

section
/-! SUPPORT. What the two-source sequence (41_arithmetic.md R69) does in each case, said once for every operation, and the
statements about `add`, `mul` and `mod`. -/

namespace Sys2Proof.Machine

open Sys2Proof

/-- The report of a raised fault (R103, R104). -/
theorem State.raise_eq (s : State) (o : Opcode) (k : FaultKind) : s.raise o k = .next (s.faulted k o.number) := rfl

section compute2

variable {s : State} {a b : Operand} {f : Word → Word → Except FaultKind Word}

/-- An unreadable source ends the sequence before anything else is looked at. -/
theorem State.compute2_of_unreadable (h : ¬ (s.readable a ∧ s.readable b)) (o : Opcode) (d : Word) :
    s.compute2 o d a b f = .next (s.faulted .outOfBounds o.number) := by
  rw [State.compute2_eq, if_neg h, State.raise_eq]

/-- A fault of the operation itself comes before the destination is looked at. -/
theorem State.compute2_of_error (ha : s.readable a) (hb : s.readable b) {k : FaultKind}
    (hf : f (s.valueOf a) (s.valueOf b) = .error k) (o : Opcode) (d : Word) :
    s.compute2 o d a b f = .next (s.faulted k o.number) := by
  rw [State.compute2_eq, if_pos ⟨ha, hb⟩, hf]
  rfl

/-- A result goes to the destination. -/
theorem State.compute2_of_ok (ha : s.readable a) (hb : s.readable b) {r : Word}
    (hf : f (s.valueOf a) (s.valueOf b) = .ok r) (o : Opcode) (d : Word) :
    s.compute2 o d a b f = s.store o d r := by
  rw [State.compute2_eq, if_pos ⟨ha, hb⟩, hf]

end compute2

theorem State.store_of_not_validAddr {s : State} {d : Word} (hd : ¬ s.validAddr d) (o : Opcode) (r : Word) :
    s.store o d r = .next (s.faulted .outOfBounds o.number) := by
  rw [State.store_eq, if_neg hd, State.raise_eq]

theorem State.store_of_validAddr {s : State} {d : Word} (hm : s.mem.wf = true) (hd : s.validAddr d) (o : Opcode) (r : Word) :
    ∃ t, s.store o d r = .next t ∧ StoresOnly s t d r :=
  ⟨s.stored d r, (s.store_eq o d r).trans (if_pos hd), State.stored_only hm d r⟩

section total

variable {s : State} {d : Word} {a b : Operand}

/-- An operation that raises nothing, every operand in bounds. -/
theorem State.compute2_ok_stores (o : Opcode) (f : Word → Word → Word) (hm : s.mem.wf = true) (ha : s.readable a)
    (hb : s.readable b) (hd : s.validAddr d) :
    ∃ t, s.compute2 o d a b (fun x y => .ok (f x y)) = .next t ∧ StoresOnly s t d (f (s.valueOf a) (s.valueOf b)) := by
  rw [State.compute2_of_ok ha hb rfl]
  exact State.store_of_validAddr hm hd o _

/-- An operation that raises nothing, some operand out of bounds. -/
theorem State.compute2_ok_faults (o : Opcode) (f : Word → Word → Word)
    (h : ¬ (s.readable a ∧ s.readable b ∧ s.validAddr d)) :
    s.compute2 o d a b (fun x y => .ok (f x y)) = .next (s.faulted .outOfBounds o.number) := by
  by_cases hab : s.readable a ∧ s.readable b
  case neg => exact State.compute2_of_unreadable hab o d
  case pos =>
    obtain ⟨ha, hb⟩ := hab
    have hd : ¬ s.validAddr d := fun hd => h ⟨ha, hb, hd⟩
    rw [State.compute2_of_ok ha hb rfl, State.store_of_not_validAddr hd]

end total

theorem exec_add (d : Word) (a b : Operand) (s : State) :
    exec (.add d a b) s = s.compute2 .add d a b fun x y => .ok (addWord x y) := rfl

theorem exec_mul (d : Word) (a b : Operand) (s : State) :
    exec (.mul d a b) s = s.compute2 .mul d a b fun x y => .ok (mulWord x y) := rfl

theorem exec_mod (d : Word) (a b : Operand) (s : State) : exec (.mod d a b) s = s.compute2 .mod d a b modWord := rfl

theorem toInt_addWord (x y : Word) : (addWord x y).toInt = wrap32 (x.toInt + y.toInt) := toInt_toI32 _

theorem toInt_mulWord (x y : Word) : (mulWord x y).toInt = wrap32 (x.toInt * y.toInt) := toInt_toI32 _

/-- Settles O37, by the two-source sequence of an operation that raises nothing. -/
theorem addWrapsToSlot : Obligations.AddWrapsToSlot := by
  intro d a b s
  rw [exec_add]
  refine ⟨fun hm ha hb hd => ?stores, State.compute2_ok_faults .add addWord, (Laws.Header.add d a b).1⟩
  case stores =>
    obtain ⟨t, ht, hframe⟩ := State.compute2_ok_stores .add addWord hm ha hb hd
    exact ⟨t, _, ht, hframe, toInt_addWord _ _⟩

/-- Settles O39, by the two-source sequence of an operation that raises nothing. -/
theorem mulWrapsToSlot : Obligations.MulWrapsToSlot := by
  intro d a b s
  rw [exec_mul]
  refine ⟨fun hm ha hb hd => ?stores, State.compute2_ok_faults .mul mulWord, (Laws.Header.mul d a b).1⟩
  case stores =>
    obtain ⟨t, ht, hframe⟩ := State.compute2_ok_stores .mul mulWord hm ha hb hd
    exact ⟨t, _, ht, hframe, toInt_mulWord _ _⟩

/-- The magnitude of a truncating remainder is less than the divisor's. -/
theorem abs_tmod_lt_abs (m : Int) {n : Int} (hn : n ≠ 0) : |m.tmod n| < |n| := by
  rw [Int.abs_eq_natAbs, Int.abs_eq_natAbs, Int.natAbs_tmod]
  exact_mod_cast Nat.mod_lt _ (Int.natAbs_pos.2 hn)

/-- A truncating remainder is 0 or has the dividend's sign. -/
theorem tmod_eq_zero_or_sign_eq (m n : Int) : m.tmod n = 0 ∨ (m.tmod n).sign = m.sign := by
  have hsign := Int.sign_tmod m n
  by_cases hdvd : n ∣ m
  · rw [if_pos hdvd] at hsign
    exact .inl (Int.sign_eq_zero_iff_zero.1 hsign)
  · rw [if_neg hdvd] at hsign
    exact .inr hsign

/-- A zero divisor raises (R74). -/
theorem modWord_zero (x : Word) : modWord x 0 = .error .divisionByZero := rfl

/-- `mod` by a non-zero divisor (R74): the truncating remainder of the exact values, which `to_i32` does not change because
its magnitude is below the divisor's. -/
theorem modWord_of_ne_zero (x : Word) {y : Word} (hy : y ≠ 0) :
    ∃ r, modWord x y = .ok r ∧ r.toInt = x.toInt.tmod y.toInt := by
  refine ⟨_, if_neg hy, ?_⟩
  have hlt := abs_lt.1 (abs_tmod_lt_abs x.toInt (BitVec.toInt_ne.2 hy))
  have habs : |y.toInt| ≤ 2 ^ 31 := abs_le.2 ⟨(toInt_bounds y).1, (toInt_bounds y).2.le⟩
  rw [toInt_toI32, truncDiv, ← Int.tmod_def]
  exact wrap32_of_mem (by omega) (by omega)

/-- Settles O41: the result is the truncating remainder, of which the sign and the magnitude are facts about integers; the
faults come in the order of the two-source sequence. -/
theorem modFollowsDividend : Obligations.ModFollowsDividend := by
  intro d a b s
  rw [exec_mod]
  refine ⟨fun hm ha hb hd hy => ?stores, fun ha hb hy => ?zeroDivisor, fun h => ?unreadable,
    fun ha hb hy hd => ?destination, (Laws.Header.mod d a b).1⟩
  case stores =>
    obtain ⟨r, hr, hmod⟩ := modWord_of_ne_zero (s.valueOf a) hy
    obtain ⟨t, ht, hframe⟩ := State.store_of_validAddr hm hd .mod r
    refine ⟨t, r, (State.compute2_of_ok ha hb hr .mod d).trans ht, hframe, ?_⟩
    rw [hmod, ← Int.tmod_def]
    exact ⟨rfl, tmod_eq_zero_or_sign_eq _ _, abs_tmod_lt_abs _ (BitVec.toInt_ne.2 hy)⟩
  case zeroDivisor => exact State.compute2_of_error ha hb (by rw [hy, modWord_zero]) .mod d
  case unreadable => exact State.compute2_of_unreadable h .mod d
  case destination =>
    obtain ⟨r, hr, -⟩ := modWord_of_ne_zero (s.valueOf a) hy
    rw [State.compute2_of_ok ha hb hr, State.store_of_not_validAddr hd]
    rfl

end Sys2Proof.Machine
end

section
/-! SUPPORT. The truth value of `equal` (42_compare_logic.md R77) and the statement about it. -/

namespace Sys2Proof.Machine

open Sys2Proof

theorem exec_equal (d : Word) (a b : Operand) (s : State) :
    exec (.equal d a b) s = s.compute2 .equal d a b fun x y => .ok (equalWord x y) := rfl

/-- The boolean test of the model is the equality of R77. -/
theorem equalWord_eq_ite (x y : Word) : equalWord x y = if x = y then 1 else 0 := by
  simp only [equalWord, truth, decide_eq_true_eq]

/-- Settles O43, by the two-source sequence of an operation that raises nothing. -/
theorem equalComparesValues : Obligations.EqualComparesValues := by
  intro d a b s
  rw [exec_equal]
  refine ⟨fun hm ha hb hd => ?stores, State.compute2_ok_faults .equal equalWord, (Laws.Header.equal d a b).1⟩
  case stores =>
    rw [← equalWord_eq_ite]
    exact State.compute2_ok_stores .equal equalWord hm ha hb hd

end Sys2Proof.Machine
end

section
/-! SUPPORT. What the draw sequences (44_draw_io.md R83) do in each case, said once for every command, and the statements
about `point`, `line` and `rect`. -/

namespace Sys2Proof.Machine

open Sys2Proof

theorem State.hasRoom_iff (s : State) : s.hasRoom = true ↔ s.QueueHasRoom := by
  unfold State.hasRoom State.QueueHasRoom
  cases s.params.dqDepth with
  | none => simp
  | some n => simp

/-- With room in the queue and the colour kept, the end of a draw instruction has the frame of R83. -/
theorem State.emit_appends {s : State} (hroom : s.QueueHasRoom) (c : DrawCmd) :
    ∃ t, s.emit c s.cc = .next t ∧ AppendsOnly s t c :=
  ⟨s.drawn c s.cc, (s.emit_eq c s.cc).trans (if_pos (s.hasRoom_iff.2 hroom)), rfl⟩

section draw

variable {s : State} {a b c d : Operand}

theorem State.draw2_appends (o : Opcode) (mk : Word → Word → DrawCmd) (ha : s.readable a) (hb : s.readable b)
    (hroom : s.QueueHasRoom) :
    ∃ t, s.draw2 o a b mk = .next t ∧ AppendsOnly s t (mk (s.valueOf a) (s.valueOf b)) := by
  rw [State.draw2_eq, if_pos ⟨ha, hb⟩]
  exact State.emit_appends hroom _

/-- Any unreadable operand ends the sequence before the append, whether or not the queue has room. -/
theorem State.draw2_of_unreadable (o : Opcode) (mk : Word → Word → DrawCmd) (h : ¬ (s.readable a ∧ s.readable b)) :
    s.draw2 o a b mk = .next (s.faulted .outOfBounds o.number) := by
  rw [State.draw2_eq, if_neg h, State.raise_eq]

theorem State.draw4_appends (o : Opcode) (mk : Word → Word → Word → Word → DrawCmd) (ha : s.readable a)
    (hb : s.readable b) (hc : s.readable c) (hd : s.readable d) (hroom : s.QueueHasRoom) :
    ∃ t, s.draw4 o a b c d mk = .next t ∧
      AppendsOnly s t (mk (s.valueOf a) (s.valueOf b) (s.valueOf c) (s.valueOf d)) := by
  rw [State.draw4_eq, if_pos ⟨ha, hb, hc, hd⟩]
  exact State.emit_appends hroom _

/-- Any unreadable operand ends the sequence before the append, whether or not the queue has room. -/
theorem State.draw4_of_unreadable (o : Opcode) (mk : Word → Word → Word → Word → DrawCmd)
    (h : ¬ (s.readable a ∧ s.readable b ∧ s.readable c ∧ s.readable d)) :
    s.draw4 o a b c d mk = .next (s.faulted .outOfBounds o.number) := by
  rw [State.draw4_eq, if_neg h, State.raise_eq]

end draw

theorem exec_point (x y : Operand) (s : State) : exec (.point x y) s = s.draw2 .point x y .point := rfl

theorem exec_line (x1 y1 x2 y2 : Operand) (s : State) :
    exec (.line x1 y1 x2 y2) s = s.draw4 .line x1 y1 x2 y2 .line := rfl

theorem exec_rect (x y w h : Operand) (s : State) : exec (.rect x y w h) s = s.draw4 .rect x y w h .rect := rfl

/-- Settles O47, by the two-operand draw sequence. -/
theorem pointAppends : Obligations.PointAppends := by
  intro x y s
  rw [exec_point]
  exact ⟨State.draw2_appends .point .point, State.draw2_of_unreadable .point .point, (Laws.Header.point x y).1⟩

/-- Settles O48, by the four-operand draw sequence. -/
theorem lineAppends : Obligations.LineAppends := by
  intro x1 y1 x2 y2 s
  rw [exec_line]
  exact ⟨State.draw4_appends .line .line, State.draw4_of_unreadable .line .line, (Laws.Header.line x1 y1 x2 y2).1⟩

/-- Settles O49, by the four-operand draw sequence. -/
theorem rectAppends : Obligations.RectAppends := by
  intro x y w h s
  rw [exec_rect]
  exact ⟨State.draw4_appends .rect .rect, State.draw4_of_unreadable .rect .rect, (Laws.Header.rect x y w h).1⟩

end Sys2Proof.Machine
end

section
/-! SUPPORT. What a turn of the host's does (45_run_control.md R89, R90), and which moves leave `IDLE` or enter it, said
once; then the statements about `run_start`, `run_tick` and the host's accesses. -/

namespace Sys2Proof.Machine

open Sys2Proof

section hostTurn

variable {s : State} {u : Transaction}

/-- The host's turn is used up and its transaction issued (assumption 6). -/
theorem step_of_issues (h : Issues s u) : step s = (s.withSchedule s.schedule.tail).issue u := by
  obtain ⟨l, hs⟩ := List.head?_eq_some_iff.1 h
  simp only [step, State.takeTurn, hs, List.tail_cons]

theorem step_of_issues_enabled (h : Issues s u) (he : u.enabled s.phase = true) :
    step s = .next ((s.withSchedule s.schedule.tail).perform u) := by
  rw [step_of_issues h, State.issue_eq]
  exact if_pos he

theorem step_of_issues_disabled (h : Issues s u) (he : ¬ u.enabled s.phase = true) :
    step s = .refused .transactionNotEnabled := by
  rw [step_of_issues h, State.issue_eq]
  exact if_neg he

/-- A transaction its phase does not enable has no move (R90). -/
theorem step_ne_next_of_disabled (h : Issues s u) (he : ¬ u.enabled s.phase = true) (t : State) : step s ≠ .next t := by
  rw [step_of_issues_disabled h he]
  exact nofun

end hostTurn

@[simp] theorem Transaction.enabled_runStart (p : Phase) : Transaction.runStart.enabled p = true ↔ p = .idle :=
  decide_eq_true_iff

@[simp] theorem Transaction.enabled_runTick (p : Phase) : Transaction.runTick.enabled p = true ↔ p = .ready :=
  decide_eq_true_iff

@[simp] theorem Transaction.enabled_hostRead (a : Word) (p : Phase) :
    (Transaction.hostRead a).enabled p = true ↔ p = .idle ∨ p = .ready :=
  decide_eq_true_iff

@[simp] theorem Transaction.enabled_hostWrite (a v : Word) (p : Phase) :
    (Transaction.hostWrite a v).enabled p = true ↔ p = .idle ∨ p = .ready :=
  decide_eq_true_iff

/-- With a start label the start run begins (R91). -/
theorem State.runStart_of_startValid {s : State} (h : s.params.startValid = true) :
    s.runStart = { s with res := .cleared, pc := s.params.startPc, phase := .runStart } := if_pos h

/-- Without one the engine is ready at once (R91). -/
theorem State.runStart_of_not_startValid {s : State} (h : s.params.startValid = false) :
    s.runStart = { s with res := .success, phase := .ready } := if_neg (by simp [h])

theorem State.runStart_phase_ne_idle (s : State) : s.runStart.phase ≠ .idle := by
  cases h : s.params.startValid with
  | true => rw [State.runStart_of_startValid h]; exact nofun
  | false => rw [State.runStart_of_not_startValid h]; exact nofun

/-- `host_read` (R96): the slot's value, or the failure of the access. -/
theorem State.hostRead_eq (s : State) (a : Word) :
    s.hostRead a = s.reply (if s.validAddr a then .value (s.slot a) else .outOfBounds) := by
  unfold State.hostRead
  rw [State.memRead_eq]
  by_cases ha : s.validAddr a
  · rw [if_pos ha, if_pos ha]
  · rw [if_neg ha, if_neg ha]

/-- An in-bounds `host_write` is the model's `MemWrite`, answered (R96). -/
theorem State.hostWrite_of_memWrite {s t : State} {a v : Word} (h : s.memWrite a v = .ok t) :
    s.hostWrite a v = t.reply .done := by
  simp only [State.hostWrite, h]

theorem State.hostWrite_of_not_validAddr {s : State} {a : Word} (ha : ¬ s.validAddr a) (v : Word) :
    s.hostWrite a v = s.reply .outOfBounds := by
  simp only [State.hostWrite, State.memWrite_eq, if_neg ha]

theorem State.hostRead_phase (s : State) (a : Word) : (s.hostRead a).phase = s.phase := by
  rw [State.hostRead_eq, State.reply_phase]

theorem State.hostWrite_phase (s : State) (a v : Word) : (s.hostWrite a v).phase = s.phase := by
  by_cases ha : s.validAddr a
  · rw [State.hostWrite_of_memWrite ((s.memWrite_eq a v).trans (if_pos ha))]
    rfl
  · rw [State.hostWrite_of_not_validAddr ha]
    rfl

/-- An instruction leaves the phase, or ends its run in a fault (R93, R104). -/
theorem exec_phase {i : Instr} {s t : State} (h : exec i s = .next t) : t.phase = s.phase ∨ t.phase = .ready := by
  rcases exec_ends i s with ⟨k, -, hx⟩ | ⟨-, he⟩
  case inl =>
    cases hx.symm.trans h
    exact .inr rfl
  case inr =>
    left
    cases he with
    | stores d r hd hv hx => cases hx.symm.trans h; rfl
    | jumps p c hi hx => cases hx.symm.trans h; rfl
    | advances p c hi hx => cases hx.symm.trans h; rfl
    | draws c col hi hd hc hx =>
      rw [hx, State.emit_eq] at h
      split at h
      · cases h; rfl
      · cases h

/-- What a step can do about `IDLE`: `run_start` leaves it, `reset` enters it, and every other move keeps the engine in it
or out of it (R90, R91). -/
def KeepsIdle (s t : State) : Prop :=
  (s.phase = .idle ↔ t.phase = .idle) ∨ (Issues s .runStart ∧ t.phase ≠ .idle) ∨ (Issues s .reset ∧ t.phase = .idle)

theorem keepsIdle_of_ne {s t : State} (hs : s.phase ≠ .idle) (ht : t.phase ≠ .idle) : KeepsIdle s t :=
  .inl (iff_of_false hs ht)

theorem keepsIdle_of_phase_eq {s t : State} (h : t.phase = s.phase) : KeepsIdle s t := .inl (by rw [h])

theorem phase_ne_idle_of_running {s : State} (h : s.running = true) : s.phase ≠ .idle := by
  rcases State.phase_of_running.1 h with hp | hp <;> rw [hp] <;> decide

theorem phase_ne_idle_of_aboutToRun {s : State} {i : Instr} (h : AboutToRun s i) : s.phase ≠ .idle := by
  obtain ⟨-, hp | ⟨hp, -⟩, -⟩ := h <;> rw [hp] <;> decide

theorem keepsIdle_of_perform {s : State} {u : Transaction} {l : List Turn} (hs : s.schedule = .issue u :: l)
    (he : u.enabled s.phase = true) : KeepsIdle s ((s.withSchedule l).perform u) := by
  have hi : Issues s u := congrArg List.head? hs
  cases u with
  | reset => exact .inr (.inr ⟨hi, rfl⟩)
  | runStart => exact .inr (.inl ⟨hi, State.runStart_phase_ne_idle _⟩)
  | runTick =>
    have hready : s.phase = .ready := (Transaction.enabled_runTick _).1 he
    exact keepsIdle_of_ne (by rw [hready]; decide) nofun
  | hostRead a => exact keepsIdle_of_phase_eq (State.hostRead_phase _ a)
  | hostWrite a v => exact keepsIdle_of_phase_eq (State.hostWrite_phase _ a v)
  | readResult => exact keepsIdle_of_phase_eq rfl
  | readDraw => exact keepsIdle_of_phase_eq rfl

theorem step_keepsIdle {s t : State} (h : step s = .next t) : KeepsIdle s t := by
  cases step_moves h with
  | idles ht hr h => exact keepsIdle_of_phase_eq (by rw [h, State.turnTaken_phase])
  | ends ht hr he h => exact keepsIdle_of_ne (phase_ne_idle_of_running hr) (by rw [h]; exact nofun)
  | illegal ht hr w hw hd h => exact keepsIdle_of_ne (phase_ne_idle_of_running hr) (by rw [h]; exact nofun)
  | runs i ha h =>
    rcases exec_phase h with hp | hp
    · exact keepsIdle_of_phase_eq (hp.trans (State.turnTaken_phase s))
    · exact keepsIdle_of_ne (phase_ne_idle_of_aboutToRun ha) (by rw [hp]; decide)
  | waits l hs hr h => exact keepsIdle_of_phase_eq (by rw [h, State.withSchedule_phase])
  | issues u l hs he h => exact h ▸ keepsIdle_of_perform hs he

/-- Settles O19: the effect is that of the enabled transaction in each branch of R91, and what a step can do about `IDLE`
gives the only way out and the only way back. -/
theorem runStartCommand : Obligations.RunStartCommand := by
  refine ⟨fun s hi => ⟨fun hp hv => ?startLabel, fun hp hv => ?noStartLabel, fun hp => ?outOfPhase⟩,
    fun s t h => ⟨fun hp => ?wayOut, fun hp => ?wayBack⟩⟩
  case startLabel =>
    rw [step_of_issues_enabled hi ((Transaction.enabled_runStart _).2 hp), State.perform,
      State.runStart_of_startValid (s := s.withSchedule s.schedule.tail) hv]
    rfl
  case noStartLabel =>
    rw [step_of_issues_enabled hi ((Transaction.enabled_runStart _).2 hp), State.perform,
      State.runStart_of_not_startValid (s := s.withSchedule s.schedule.tail) hv]
    rfl
  case outOfPhase => exact step_ne_next_of_disabled hi (mt (Transaction.enabled_runStart _).1 hp)
  case wayOut =>
    rcases step_keepsIdle h with hiff | ⟨hi, -⟩ | ⟨-, ht⟩
    · exact .inl (hiff.1 hp)
    · exact .inr hi
    · exact .inl ht
  case wayBack =>
    rcases step_keepsIdle h with hiff | ⟨-, hne⟩ | ⟨hi, -⟩
    · exact .inl (hiff.2 hp)
    · exact absurd hp hne
    · exact .inr hi

/-- Settles O20: the enabled transaction performs `run_tick`, whose effect R92 states; out of phase there is no move. -/
theorem runTickCommand : Obligations.RunTickCommand := by
  refine fun s hi => ⟨fun hp => ?ready, fun hp => ?outOfPhase⟩
  case ready => exact step_of_issues_enabled hi ((Transaction.enabled_runTick _).2 hp)
  case outOfPhase => exact step_ne_next_of_disabled hi (mt (Transaction.enabled_runTick _).1 hp)

section hostAccess

variable {s : State} {a : Word}

/-- Between runs `host_read` answers the slot's value or the failure, and the engine's state stays (R96). -/
theorem step_hostRead (hp : s.phase = .idle ∨ s.phase = .ready) (hi : Issues s (.hostRead a)) :
    step s = .next (s.answered (if s.validAddr a then .value (s.slot a) else .outOfBounds)) := by
  rw [step_of_issues_enabled hi ((Transaction.enabled_hostRead a _).2 hp), State.perform, State.hostRead_eq]
  rfl

/-- Between runs an in-bounds `host_write` changes the one slot (R96). -/
theorem step_hostWrite_of_validAddr {v : Word} (hm : s.mem.wf = true) (hp : s.phase = .idle ∨ s.phase = .ready)
    (hi : Issues s (.hostWrite a v)) (ha : s.validAddr a) :
    ∃ t, step s = .next t ∧ t = { s.answered .done with mem := t.mem } ∧ t.slot a = v ∧
      ∀ b : Nat, b ≠ a.toInt.toNat → t.mem.read b = s.mem.read b := by
  have hstep := step_of_issues_enabled hi ((Transaction.enabled_hostWrite a v _).2 hp)
  have hwrite := ((s.withSchedule s.schedule.tail).memWrite_eq a v).trans (if_pos ha)
  rw [State.perform, State.hostWrite_of_memWrite hwrite] at hstep
  refine ⟨_, hstep, rfl, ?slot, fun b hb => ?otherSlots⟩
  case slot => exact (Memory.read_write hm _ _ v).trans (if_pos rfl)
  case otherSlots => exact (Memory.read_write hm _ _ v).trans (if_neg hb)

/-- Between runs an out-of-bounds `host_write` is answered with the failure, and the engine's state stays (R96). -/
theorem step_hostWrite_of_not_validAddr {v : Word} (hp : s.phase = .idle ∨ s.phase = .ready)
    (hi : Issues s (.hostWrite a v)) (ha : ¬ s.validAddr a) : step s = .next (s.answered .outOfBounds) := by
  rw [step_of_issues_enabled hi ((Transaction.enabled_hostWrite a v _).2 hp), State.perform,
    State.hostWrite_of_not_validAddr (s := s.withSchedule s.schedule.tail) ha]
  rfl

end hostAccess

/-- A running phase is neither of the two that enable the host's accesses (R89). -/
theorem not_idle_or_ready_of_running {s : State} (h : s.running = true) : ¬ (s.phase = .idle ∨ s.phase = .ready) := by
  rcases State.phase_of_running.1 h with hp | hp <;> rw [hp] <;> decide

/-- Settles O23, by the two accesses' own steps; during a run their phase test fails. -/
theorem hostAccess : Obligations.HostAccess := by
  refine fun s a v hm => ⟨fun hp => ⟨fun hi ha => ?read, fun hi ha => ?write, fun hi ha => ?outOfBounds⟩,
    fun hr hi => ?duringRun⟩
  case read => rw [step_hostRead hp hi, if_pos ha]
  case write => exact step_hostWrite_of_validAddr hm hp hi ha
  case outOfBounds =>
    rcases hi with hi | hi
    · rw [step_hostRead hp hi, if_neg ha]
    · exact step_hostWrite_of_not_validAddr hp hi ha
  case duringRun =>
    have hp := not_idle_or_ready_of_running hr
    rcases hi with hi | hi
    · exact step_ne_next_of_disabled hi (mt (Transaction.enabled_hostRead a _).1 hp)
    · exact step_ne_next_of_disabled hi (mt (Transaction.enabled_hostWrite a v _).1 hp)

end Sys2Proof.Machine
end

section
/-! SUPPORT. Which fault an instruction takes during a run is `firstFault` (60_exceptions.md R104, R106); then the statement
about DivisionByZero. -/

namespace Sys2Proof.Machine

open Sys2Proof

/-- An instruction that takes no fault keeps the phase and the last result (R93). -/
theorem Effect.keeps_phase_and_res {i : Instr} {s t : State} (he : Effect i s) (h : exec i s = .next t) :
    t.phase = s.phase ∧ t.res = s.res := by
  cases he with
  | stores d r hd hv hx => cases hx.symm.trans h; exact ⟨rfl, rfl⟩
  | jumps p c hi hx => cases hx.symm.trans h; exact ⟨rfl, rfl⟩
  | advances p c hi hx => cases hx.symm.trans h; exact ⟨rfl, rfl⟩
  | draws c col hi hd hc hx =>
    rw [hx, State.emit_eq] at h
    split at h
    · cases h; exact ⟨rfl, rfl⟩
    · cases h

theorem phase_ne_ready_of_running {s : State} (h : s.running = true) : s.phase ≠ .ready :=
  fun hp => not_idle_or_ready_of_running h (.inr hp)

/-- During a run the fault entry is taken for the fault that R106 puts first, and for no other. -/
theorem exec_eq_faulted_iff {i : Instr} {s : State} (hr : s.running = true) (k : FaultKind) :
    exec i s = .next (s.faulted k i.opcode.number) ↔ firstFault i s = some k := by
  rcases exec_ends i s with ⟨k', hk, hx⟩ | ⟨hk, he⟩
  case inl =>
    rw [hk, hx]
    constructor
    · intro h
      cases congrArg (fun t : State => t.res.cause) (Host.Outcome.next.inj h)
      rfl
    · intro h
      cases h
      rfl
  case inr =>
    rw [hk]
    refine iff_of_false (fun h => ?_) nofun
    exact phase_ne_ready_of_running hr (he.keeps_phase_and_res h).1.symm

/-- DivisionByZero comes first exactly when every source can be read and the divisor is 0 (R101, R106). -/
theorem firstFault_eq_divisionByZero_iff (i : Instr) (s : State) :
    firstFault i s = some .divisionByZero ↔
      ∃ b, i.divisor = some b ∧ s.valueOf b = 0 ∧ ∀ a ∈ i.sources, s.readable a := by
  unfold firstFault
  by_cases hs : ∀ a ∈ i.sources, s.readable a
  case pos =>
    rw [if_neg (by simpa using hs)]
    cases hv : i.divisor with
    | none => simp
    | some b =>
      by_cases hz : s.valueOf b = 0
      · exact iff_of_true (by simp [hz]) ⟨b, rfl, hz, hs⟩
      · exact iff_of_false (by simpa using hz) fun ⟨_, hb, h0, _⟩ => hz (Option.some.inj hb ▸ h0)
  case neg =>
    rw [if_pos (by simpa using hs)]
    exact iff_of_false nofun fun ⟨_, _, _, h⟩ => hs h

/-- Only `div` and `mod` have a divisor (R51, R101). -/
theorem opcode_of_divisor {i : Instr} {b : Operand} (h : i.divisor = some b) : i.opcode = .div ∨ i.opcode = .mod := by
  cases i with
  | div d a b => exact .inl rfl
  | mod d a b => exact .inr rfl
  | _ => cases h

/-- Settles O30: during a run the fault taken is the first that applies, and DivisionByZero is first exactly when the sources
were read and the divisor is 0. -/
theorem divisionByZeroOnlyFromZeroDivisor : Obligations.DivisionByZeroOnlyFromZeroDivisor := by
  refine ⟨fun i s hr => ?zeroDivisor, fun i b => opcode_of_divisor, rfl⟩
  case zeroDivisor => rw [exec_eq_faulted_iff hr, firstFault_eq_divisionByZero_iff]

end Sys2Proof.Machine
end

section
/-! SUPPORT. Decoding and the word of an instruction are inverse to each other (spec 30_encoding.md R55, R56), and the
statements of laws T1 and T2. -/

namespace Sys2Proof

/-- A sequence in `Except` succeeds exactly when each of its parts does. -/
theorem except_bind_eq_ok {ε α β : Type} {x : Except ε α} {g : α → Except ε β} {r : β} :
    (x >>= g) = .ok r ↔ ∃ a, x = .ok a ∧ g a = .ok r := by
  cases x with
  | error e => exact iff_of_false nofun fun ⟨_, h, _⟩ => nomatch h
  | ok a => exact ⟨fun h => ⟨a, rfl, h⟩, fun ⟨_, h, hg⟩ => by cases h; exact hg⟩

theorem except_pure_eq_ok {ε α : Type} {a r : α} : (pure a : Except ε α) = .ok r ↔ a = r :=
  Except.ok.injEq a r ▸ Iff.rfl

theorem sourceOf_eq {k : BitVec 2} {v : Word} {a : Operand} : sourceOf k v = .ok a ↔ k = a.kind ∧ v = a.value := by
  constructor
  · intro h
    obtain ⟨hk, hv⟩ := kind_value_of_sourceOf h
    exact ⟨hk.symm, hv.symm⟩
  · rintro ⟨rfl, rfl⟩
    exact sourceOf_kind_value a

section shapes

/-! A shape is read from exactly the fields that its operands are written to, every unused slot zero (R51). -/

variable {f : Fields} {i : Instr}

theorem shapeDS_eq {mk : Word → Operand → Instr} :
    shapeDS f mk = .ok i ↔ ∃ d a, mk d a = i ∧ f = ⟨f.op, kindAddr, a.kind, 0, 0, f.rsv, d, a.value, 0, 0⟩ := by
  cases f
  simp only [shapeDS, except_bind_eq_ok, except_pure_eq_ok, destOf_eq, sourceOf_eq, unusedSlot_eq, kindNone, Fields.mk.injEq]
  grind

theorem shapeDSS_eq {mk : Word → Operand → Operand → Instr} :
    shapeDSS f mk = .ok i ↔
      ∃ d a b, mk d a b = i ∧ f = ⟨f.op, kindAddr, a.kind, b.kind, 0, f.rsv, d, a.value, b.value, 0⟩ := by
  cases f
  simp only [shapeDSS, except_bind_eq_ok, except_pure_eq_ok, destOf_eq, sourceOf_eq, unusedSlot_eq, kindNone, Fields.mk.injEq]
  grind

theorem shapeTS_eq {mk : Word → Operand → Instr} :
    shapeTS f mk = .ok i ↔
      ∃ t c, mk t c = i ∧ targetOk t = true ∧ f = ⟨f.op, kindTgt, c.kind, 0, 0, f.rsv, t, c.value, 0, 0⟩ := by
  cases f
  simp only [shapeTS, except_bind_eq_ok, except_pure_eq_ok, targetOf_eq, sourceOf_eq, unusedSlot_eq, kindNone, Fields.mk.injEq]
  grind

theorem shapeSS_eq {mk : Operand → Operand → Instr} :
    shapeSS f mk = .ok i ↔ ∃ a b, mk a b = i ∧ f = ⟨f.op, a.kind, b.kind, 0, 0, f.rsv, a.value, b.value, 0, 0⟩ := by
  cases f
  simp only [shapeSS, except_bind_eq_ok, except_pure_eq_ok, sourceOf_eq, unusedSlot_eq, kindNone, Fields.mk.injEq]
  grind

theorem shapeSSS_eq {mk : Operand → Operand → Operand → Instr} :
    shapeSSS f mk = .ok i ↔
      ∃ a b c, mk a b c = i ∧ f = ⟨f.op, a.kind, b.kind, c.kind, 0, f.rsv, a.value, b.value, c.value, 0⟩ := by
  cases f
  simp only [shapeSSS, except_bind_eq_ok, except_pure_eq_ok, sourceOf_eq, unusedSlot_eq, kindNone, Fields.mk.injEq]
  grind

theorem shapeSSSS_eq {mk : Operand → Operand → Operand → Operand → Instr} :
    shapeSSSS f mk = .ok i ↔ ∃ a b c d, mk a b c d = i ∧
      f = ⟨f.op, a.kind, b.kind, c.kind, d.kind, f.rsv, a.value, b.value, c.value, d.value⟩ := by
  cases f
  simp only [shapeSSSS, except_bind_eq_ok, except_pure_eq_ok, sourceOf_eq, Fields.mk.injEq]
  grind

/-- An instruction's own fields decode to it by its opcode's shape. -/
theorem decodeShape_fields (h : i.wf = true) : decodeShape i.fields i.opcode = .ok i := by
  cases i with
  | mov d a => exact shapeDS_eq.2 ⟨d, a, rfl, rfl⟩
  | add d a b => exact shapeDSS_eq.2 ⟨d, a, b, rfl, rfl⟩
  | sub d a b => exact shapeDSS_eq.2 ⟨d, a, b, rfl, rfl⟩
  | mul d a b => exact shapeDSS_eq.2 ⟨d, a, b, rfl, rfl⟩
  | div d a b => exact shapeDSS_eq.2 ⟨d, a, b, rfl, rfl⟩
  | mod d a b => exact shapeDSS_eq.2 ⟨d, a, b, rfl, rfl⟩
  | less d a b => exact shapeDSS_eq.2 ⟨d, a, b, rfl, rfl⟩
  | equal d a b => exact shapeDSS_eq.2 ⟨d, a, b, rfl, rfl⟩
  | not d a => exact shapeDS_eq.2 ⟨d, a, rfl, rfl⟩
  | jmp t c => exact shapeTS_eq.2 ⟨t, c, rfl, h, rfl⟩
  | color r g b => exact shapeSSS_eq.2 ⟨r, g, b, rfl, rfl⟩
  | point x y => exact shapeSS_eq.2 ⟨x, y, rfl, rfl⟩
  | line x1 y1 x2 y2 => exact shapeSSSS_eq.2 ⟨x1, y1, x2, y2, rfl, rfl⟩
  | rect x y w z => exact shapeSSSS_eq.2 ⟨x, y, w, z, rfl, rfl⟩

/-- Fields that decode by an opcode's shape, under its number and with zero reserved bits, are the instruction's own. -/
theorem fields_of_decodeShape {o : Opcode} (h : decodeShape f o = .ok i) (hop : f.op = o.number) (hrsv : f.rsv = 0) :
    i.opcode = o ∧ i.wf = true ∧ i.fields = f := by
  cases o with
  | mov | not =>
    obtain ⟨d, a, rfl, hf⟩ := shapeDS_eq.1 h
    exact ⟨rfl, rfl, by rw [hf, hop, hrsv]; rfl⟩
  | add | sub | mul | div | mod | less | equal =>
    obtain ⟨d, a, b, rfl, hf⟩ := shapeDSS_eq.1 h
    exact ⟨rfl, rfl, by rw [hf, hop, hrsv]; rfl⟩
  | jmp =>
    obtain ⟨t, c, rfl, ht, hf⟩ := shapeTS_eq.1 h
    exact ⟨rfl, ht, by rw [hf, hop, hrsv]; rfl⟩
  | color =>
    obtain ⟨r, g, b, rfl, hf⟩ := shapeSSS_eq.1 h
    exact ⟨rfl, rfl, by rw [hf, hop, hrsv]; rfl⟩
  | point =>
    obtain ⟨x, y, rfl, hf⟩ := shapeSS_eq.1 h
    exact ⟨rfl, rfl, by rw [hf, hop, hrsv]; rfl⟩
  | line | rect =>
    obtain ⟨x, y, z, w, rfl, hf⟩ := shapeSSSS_eq.1 h
    exact ⟨rfl, rfl, by rw [hf, hop, hrsv]; rfl⟩

end shapes

theorem Instr.fields_op (i : Instr) : i.fields.op = i.opcode.number := by cases i <;> rfl

theorem Instr.fields_rsv (i : Instr) : i.fields.rsv = 0 := by cases i <;> rfl

/-- Decoding fields (R55): an assigned opcode, zero reserved bits, and the opcode's shape. -/
theorem decodeFields_eq {f : Fields} {i : Instr} :
    decodeFields f = .ok i ↔ ∃ o, f.op = Opcode.number o ∧ f.rsv = 0 ∧ decodeShape f o = .ok i := by
  unfold decodeFields
  constructor
  · intro h
    cases ho : Opcode.ofNumber f.op with
    | none => rw [ho] at h; cases h
    | some o =>
      rw [ho] at h
      by_cases hr : f.rsv = 0
      · exact ⟨o, (Opcode.number_of_ofNumber ho).symm, hr, (if_pos hr).symm.trans h⟩
      · exact nomatch (if_neg hr).symm.trans h
  · rintro ⟨o, hop, hr, h⟩
    simpa [hop, hr, Opcode.ofNumber_number] using h

/-- The decoder's meaning: a word decodes to exactly the well-formed instruction whose word it is. -/
theorem decode_eq_ok_iff {w : InstrWord} {i : Instr} : decode w = .ok i ↔ i.wf = true ∧ encode i = w := by
  unfold decode encode
  rw [decodeFields_eq]
  constructor
  · rintro ⟨o, hop, hr, h⟩
    obtain ⟨-, hwf, hf⟩ := fields_of_decodeShape h hop hr
    exact ⟨hwf, by rw [hf, Fields.toWord_ofWord]⟩
  · rintro ⟨hwf, rfl⟩
    rw [Fields.ofWord_toWord]
    exact ⟨i.opcode, i.fields_op, i.fields_rsv, decodeShape_fields hwf⟩

/-- Settles O1, by the decoder's meaning. -/
theorem decodeOfEncode : Obligations.DecodeOfEncode :=
  fun _ hwf => decode_eq_ok_iff.2 ⟨hwf, rfl⟩

/-- Settles O2, by the decoder's meaning. -/
theorem encodeOfDecode : Obligations.EncodeOfDecode :=
  fun _ _ h => decode_eq_ok_iff.1 h

end Sys2Proof
end

section
/-! SUPPORT. What an instruction that goes on did, which fault it took, and where a run stands when it executes one
(spec 45_run_control.md R93; 60_exceptions.md R106). -/

namespace Sys2Proof.Machine

open Sys2Proof

/-- Everything an instruction that goes on can have done. -/
inductive ExecTo (i : Instr) (s t : State) : Prop
  | faults (k : FaultKind) (hk : firstFault i s = some k) (h : t = s.takeFault k i.opcode.number)
  | stores (d r : Word) (hk : firstFault i s = none) (hd : i.dest = some d) (hv : s.validAddr d) (h : t = s.stored d r)
  | jumps (p : Word) (c : Operand) (hk : firstFault i s = none) (hi : i = .jmp p c) (h : t = s.jumpTo p.toNat)
  | advances (p : Word) (c : Operand) (hk : firstFault i s = none) (hi : i = .jmp p c) (h : t = s.advance)
  | draws (c : DrawCmd) (col : Color) (hk : firstFault i s = none) (hi : i.draws = true)
      (hc : i.opcode ≠ .color → col = s.cc) (hroom : s.QueueHasRoom) (h : t = s.drawn c col)

theorem exec_to {i : Instr} {s t : State} (h : exec i s = .next t) : ExecTo i s t := by
  rcases exec_ends i s with ⟨k, hk, hx⟩ | ⟨hk, he⟩
  case inl => exact .faults k hk (Host.Outcome.next.inj (h.symm.trans hx))
  case inr =>
    cases he with
    | stores d r hd hv hx => exact .stores d r hk hd hv (Host.Outcome.next.inj (h.symm.trans hx))
    | jumps p c hi hx => exact .jumps p c hk hi (Host.Outcome.next.inj (h.symm.trans hx))
    | advances p c hi hx => exact .advances p c hk hi (Host.Outcome.next.inj (h.symm.trans hx))
    | draws c col hi hd hc hx =>
      rw [hx, State.emit_eq] at h
      split at h
      · exact .draws c col hk hi hc (s.hasRoom_iff.1 ‹_›) (Host.Outcome.next.inj h).symm
      · cases h

theorem exec_params {i : Instr} {s t : State} (h : exec i s = .next t) : t.params = s.params := by
  cases exec_to h <;> subst t <;> rfl

section firstFault

variable {i : Instr} {s : State}

/-- The two operand checks of `firstFault` together are the addresses' bounds (20_memory.md R32). -/
theorem addrsBelow_iff_checks : i.addrsBelow s.params.memSize ↔
    (i.sources.any fun a => !a.inRange s.params.memSize) = false ∧
    (i.dest.any fun d => !decide (s.validAddr d)) = false := by
  unfold Instr.addrsBelow
  cases i.dest <;> simp

theorem firstFault_ne_outOfBounds (h : i.addrsBelow s.params.memSize) : firstFault i s ≠ some .outOfBounds := by
  obtain ⟨hs, hd⟩ := addrsBelow_iff_checks.1 h
  unfold firstFault
  rw [hs, hd]
  split <;> simp_all

/-- Without a divisor nothing but the word and `MEM_SIZE` decides (20_memory.md section 1). -/
theorem firstFault_eq_outOfBounds_iff (hv : i.divisor = none) :
    firstFault i s = some .outOfBounds ↔ ¬ i.addrsBelow s.params.memSize := by
  refine ⟨mt firstFault_ne_outOfBounds ∘ not_not_intro, fun h => ?_⟩
  rw [addrsBelow_iff_checks, not_and_or, Bool.not_eq_false, Bool.not_eq_false] at h
  unfold firstFault
  rw [hv]
  rcases h with h | h <;> rw [h] <;> simp

end firstFault

section aboutToRun

variable {s : State} {i : Instr}

theorem AboutToRun.running (h : AboutToRun s i) : s.running = true := by
  obtain ⟨-, hp | ⟨hp, -⟩, -⟩ := h
  · exact State.phase_of_running.2 (.inr hp)
  · exact State.phase_of_running.2 (.inl hp)

theorem AboutToRun.pc_lt (h : AboutToRun s i) : s.pc < s.params.progLen := by
  obtain ⟨-, -, w, hw, -⟩ := h
  exact (List.getElem?_eq_some_iff.1 hw).1

theorem AboutToRun.wf (h : AboutToRun s i) : i.wf = true := by
  obtain ⟨-, -, w, -, hd⟩ := h
  exact (decode_eq_ok_iff.1 hd).1

end aboutToRun

end Sys2Proof.Machine
end

section
/-! SUPPORT. The invariant (10_state.md sections 1, 2, 4; 20_memory.md section 1): every update of the engine keeps it, so
every step does; construction and reset meet it. Then law T12. -/

namespace Sys2Proof.Machine

open Sys2Proof

section engine

variable {s t : State}

/-- During a run the phase's own facts speak of the phase, the result and the parameters only. -/
theorem phaseOk_of_running (hr : s.running = true) (hp : t.phase = s.phase) (hres : t.res = s.res)
    (hparams : t.params = s.params) (h : PhaseOk s) : PhaseOk t := by
  unfold PhaseOk at *
  rw [hp, hres, hparams]
  rcases State.phase_of_running.1 hr with hs | hs <;> rw [hs] at h ⊢ <;> exact h

/-- The invariant reads nothing of the host's side. -/
theorem Inv.host (h : Inv s) (l : List Turn) (r : List Reply) : Inv { s with schedule := l, replies := r } :=
  ⟨h.params, h.mem_wf, h.mem_below, h.pc_max, h.queue, h.res, h.phase⟩

theorem Inv.withSchedule (h : Inv s) (l : List Turn) : Inv (s.withSchedule l) := h.host l s.replies

theorem Inv.reply (h : Inv s) (r : Reply) : Inv (s.reply r) := h.host s.schedule (s.replies ++ [r])

theorem Inv.turnTaken (h : Inv s) : Inv s.turnTaken := by
  unfold State.turnTaken
  split
  · exact h.host s.schedule.tail s.replies
  · exact h

/-- A write to a slot that exists, in any phase. -/
theorem Inv.write (h : Inv s) {a : Word} (ha : s.validAddr a) (v : Word) :
    Inv { s with mem := s.mem.write a.toInt.toNat v } :=
  ⟨h.params, Memory.wf_write h.mem_wf _ v, Memory.below_write h.mem_below ha.toNat_lt, h.pc_max, h.queue, h.res, h.phase⟩

/-- Within a run `pc` may move to any instruction index. -/
theorem Inv.jumpTo (h : Inv s) (hr : s.running = true) {p : Nat} (hp : p < 2 ^ 31) : Inv (s.jumpTo p) :=
  ⟨h.params, h.mem_wf, h.mem_below, hp, h.queue, h.res, phaseOk_of_running hr rfl rfl rfl h.phase⟩

/-- The successor of an instruction's index is an index (decision D26). -/
theorem ParamsOk.succ_lt {p : Params} (h : ParamsOk p) {n : Nat} (hn : n < p.progLen) : n + 1 < 2 ^ 31 :=
  lt_of_le_of_lt hn h.progLen_max

theorem Inv.stored (h : Inv s) (hr : s.running = true) (hpc : s.pc < s.params.progLen) {d : Word} (hd : s.validAddr d)
    (r : Word) : Inv (s.stored d r) :=
  (h.write hd r).jumpTo hr (h.params.succ_lt hpc)

theorem Inv.drawn (h : Inv s) (hr : s.running = true) (hpc : s.pc < s.params.progLen) (hroom : s.QueueHasRoom)
    (c : DrawCmd) (col : Color) : Inv (s.drawn c col) where
  params := h.params
  mem_wf := h.mem_wf
  mem_below := h.mem_below
  pc_max := h.params.succ_lt hpc
  queue n hn := by
    rw [State.drawn_dq, List.length_append]
    exact hroom n hn
  res := h.res
  phase := phaseOk_of_running hr rfl rfl rfl h.phase

/-- A fault is reported at the index of a fetched instruction (R104). -/
theorem Inv.takeFault (h : Inv s) (hpc : s.pc < s.params.progLen) (k : FaultKind) (op : BitVec 4) :
    Inv (s.takeFault k op) :=
  ⟨h.params, h.mem_wf, h.mem_below, h.pc_max, h.queue, ⟨nofun, hpc⟩, ⟨nofun, fun _ => rfl⟩⟩

theorem Inv.endRun (h : Inv s) : Inv s.endRun :=
  ⟨h.params, h.mem_wf, h.mem_below, h.pc_max, h.queue, ⟨rfl, rfl, rfl⟩, ⟨nofun, nofun⟩⟩

theorem exec_keeps_inv {i : Instr} (h : Inv s) (hr : s.running = true) (hpc : s.pc < s.params.progLen)
    (hwf : i.wf = true) (hx : exec i s = .next t) : Inv t := by
  cases exec_to hx with
  | faults k hk ht => exact ht ▸ h.takeFault hpc k _
  | stores d r hk hd hv ht => exact ht ▸ h.stored hr hpc hv r
  | jumps p c hk hi ht =>
    subst hi
    exact ht ▸ h.jumpTo hr (BitVec.toNat_lt_of_msb_false (by simpa [Instr.wf, targetOk] using hwf))
  | advances p c hk hi ht => exact ht ▸ h.jumpTo hr (h.params.succ_lt hpc)
  | draws c col hk hi hc hroom ht => exact ht ▸ h.drawn hr hpc hroom c col

end engine

section host

variable {s : State}

/-- The engine's reset values meet the invariant under any legal parameters (R26, R114). -/
theorem inv_resetEngine (h : ParamsOk s.params) : Inv s.resetEngine :=
  ⟨h, h.init_wf, h.init_below, Nat.two_pow_pos 31, fun _ _ => Nat.zero_le _, ⟨rfl, rfl, rfl⟩, ⟨rfl, rfl, rfl, rfl⟩⟩

theorem Inv.runStart (h : Inv s) : Inv s.runStart := by
  cases hv : s.params.startValid with
  | true =>
    rw [State.runStart_of_startValid hv]
    exact ⟨h.params, h.mem_wf, h.mem_below, (h.params.start_le hv).trans_lt h.params.progLen_max, h.queue,
      ⟨rfl, rfl, rfl⟩, ⟨rfl, hv⟩⟩
  | false =>
    rw [State.runStart_of_not_startValid hv]
    exact h.endRun

theorem Inv.runTick (h : Inv s) : Inv s.runTick :=
  ⟨h.params, h.mem_wf, h.mem_below, h.params.tick_le.trans_lt h.params.progLen_max, fun _ _ => Nat.zero_le _,
    ⟨rfl, rfl, rfl⟩, rfl⟩

theorem Inv.hostWrite (h : Inv s) (a v : Word) : Inv (s.hostWrite a v) := by
  by_cases ha : s.validAddr a
  · rw [State.hostWrite_of_memWrite ((s.memWrite_eq a v).trans (if_pos ha))]
    exact (h.write ha v).reply _
  · rw [State.hostWrite_of_not_validAddr ha]
    exact h.reply _

theorem Inv.perform (h : Inv s) (u : Transaction) : Inv (s.perform u) := by
  cases u with
  | reset => exact (inv_resetEngine h.params).reply _
  | runStart => exact h.runStart.reply _
  | runTick => exact h.runTick.reply _
  | hostRead a => rw [State.perform, State.hostRead_eq]; exact h.reply _
  | hostWrite a v => exact h.hostWrite a v
  | readResult => exact h.reply _
  | readDraw => exact h.reply _

end host

/-- Settles O12: each move is made of updates that keep the invariant. -/
theorem stepKeepsInv : Obligations.StepKeepsInv := by
  intro s t hinv h
  cases step_moves h with
  | idles ht hr h => exact h ▸ hinv.turnTaken
  | ends ht hr he h => exact h ▸ hinv.turnTaken.endRun
  | illegal ht hr w hw hd h =>
    have hpc : s.pc < s.params.progLen := (List.getElem?_eq_some_iff.1 hw).1
    exact h ▸ hinv.turnTaken.takeFault (by simpa using hpc) _ _
  | runs i ha h => exact exec_keeps_inv hinv.turnTaken (by simpa using ha.running) (by simpa using ha.pc_lt) ha.wf h
  | waits l hs hr h => exact h ▸ hinv.withSchedule l
  | issues u l hs he h => exact h ▸ (hinv.withSchedule l).perform u

/-- An address operand below a bound is below any larger one. -/
theorem addrsBelow_mono {i : Instr} {m n : Nat} (h : i.addrsBelow m) (hmn : m ≤ n) : i.addrsBelow n := by
  obtain ⟨hs, hd⟩ := h
  have mono : ∀ {a : Word}, addrBelow m a → addrBelow n a := fun ha => ⟨ha.1, by omega⟩
  refine ⟨fun a ha => ?_, fun d hd' => mono (hd d hd')⟩
  have hm := hs a ha
  cases a with
  | imm v => rfl
  | addr a => exact decide_eq_true (mono (of_decide_eq_true hm))

/-- An instruction without a fault leaves the result, and one with a fault reports it as the cause (R104). -/
theorem exec_cause {i : Instr} {s t : State} (h : exec i s = .next t) :
    (firstFault i s = none ∧ t.res = s.res) ∨ (∃ k, firstFault i s = some k ∧ t.res.cause = some k) := by
  cases exec_to h with
  | faults k hk h => exact .inr ⟨k, hk, by rw [h, State.takeFault_res]⟩
  | stores d r hk hd hv h => exact .inl ⟨hk, by rw [h, State.stored_res]⟩
  | jumps p c hk hi h => exact .inl ⟨hk, by rw [h, State.jumpTo_res]⟩
  | advances p c hk hi h => exact .inl ⟨hk, by rw [h, State.advance_res]⟩
  | draws c col hk hi hc hroom h => exact .inl ⟨hk, by rw [h, State.drawn_res]⟩

/-- `host_write` touches Memory and the host's side only (R96). -/
theorem State.hostWrite_frame (s : State) (a v : Word) :
    ∃ m r, s.hostWrite a v = State.reply { s with mem := m } r := by
  by_cases ha : s.validAddr a
  · exact ⟨_, _, State.hostWrite_of_memWrite ((s.memWrite_eq a v).trans (if_pos ha))⟩
  · exact ⟨s.mem, _, State.hostWrite_of_not_validAddr ha v⟩

/-- What each transaction writes (10_state.md section 7). -/
structure PerformWrites (u : Transaction) (s t : State) : Prop where
  mem : t.mem ≠ s.mem → u = .reset ∨ ∃ a v, u = .hostWrite a v
  cc : t.cc ≠ s.cc → u = .reset
  dq : t.dq ≠ s.dq → u = .runTick ∨ u = .reset
  pc : t.pc ≠ s.pc → u = .runStart ∨ u = .runTick ∨ u = .reset
  phase_res : t.phase ≠ s.phase ∨ t.res ≠ s.res → u = .runStart ∨ u = .runTick ∨ u = .reset
  cause : t.res = s.res ∨ t.res.cause = none
  params : t.params = s.params

/-- An answer alone writes nothing of the engine. -/
theorem performWrites_reply (u : Transaction) (s : State) (r : Reply) : PerformWrites u s (s.reply r) := by
  constructor <;> simp

theorem perform_writes (u : Transaction) (s : State) : PerformWrites u s (s.perform u) := by
  cases u with
  | reset => constructor <;> simp [State.perform, RunResult.cleared]
  | runStart =>
    have hcause : s.runStart.res.cause = none := by
      cases hv : s.params.startValid with
      | true => rw [State.runStart_of_startValid hv]; rfl
      | false => rw [State.runStart_of_not_startValid hv]; rfl
    constructor <;> simp [State.perform, hcause]
  | runTick => constructor <;> simp [State.perform, RunResult.cleared]
  | hostRead a =>
    rw [State.perform, State.hostRead_eq]
    exact performWrites_reply _ s _
  | hostWrite a v =>
    obtain ⟨m, r, hw⟩ := s.hostWrite_frame a v
    rw [State.perform, hw]
    constructor <;> simp
  | readResult => exact performWrites_reply _ s _
  | readDraw => exact performWrites_reply _ s _

/-- The construction parameters never change (10_state.md section 4). -/
theorem step_params {s t : State} (h : step s = .next t) : t.params = s.params := by
  cases step_moves h with
  | idles ht hr h => rw [h, State.turnTaken_params]
  | ends ht hr he h => rw [h, State.endRun_params, State.turnTaken_params]
  | illegal ht hr w hw hd h => rw [h, State.takeFault_params, State.turnTaken_params]
  | runs i ha h => rw [exec_params h, State.turnTaken_params]
  | waits l hs hr h => rw [h, State.withSchedule_params]
  | issues u l hs he h => rw [h, (perform_writes u _).params, State.withSchedule_params]

/-- Settles O32: the addresses stay below `MEM_SIZE`, which is at least 32, so no instruction finds one out of bounds, and no
other move reports that fault. -/
theorem addressesBelowThirtyTwoNeverFault : Obligations.AddressesBelowThirtyTwoNeverFault := by
  intro s t hinv hprog hcause h
  refine ⟨?noFault, step_params h, stepKeepsInv s t hinv h⟩
  cases step_moves h with
  | idles ht hr h => rwa [h, State.turnTaken_res]
  | ends ht hr he h => rw [h]; exact nofun
  | illegal ht hr w hw hd h => rw [h]; exact nofun
  | runs i ha h =>
    obtain ⟨-, -, w, hw, hd⟩ := ha
    have hbelow : i.addrsBelow s.turnTaken.params.memSize := by
      rw [State.turnTaken_params]
      exact addrsBelow_mono (hprog w (List.mem_of_getElem? hw) i hd) hinv.params.memSize_min
    rcases exec_cause h with ⟨-, hres⟩ | ⟨k, hk, hc⟩
    · rwa [hres, State.turnTaken_res]
    · rw [hc, ← hk]
      exact firstFault_ne_outOfBounds hbelow
  | waits l hs hr h => rwa [h, State.withSchedule_res]
  | issues u l hs he h =>
    rcases h ▸ (perform_writes u (s.withSchedule l)).cause with hres | hnone
    · rwa [hres, State.withSchedule_res]
    · rw [hnone]
      exact nofun

/-- Settles O10: the reset state is the engine's reset under legal parameters. -/
theorem resetMeetsInv : Obligations.ResetMeetsInv :=
  inv_resetEngine (s := State.reset)
    ⟨le_rfl, by decide, by decide, le_rfl, nofun, rfl, rfl⟩

/-- Settles O11: construction is the engine's reset over the given parameters, and those of a program are legal by its
hypotheses and the raising of the size to 32. -/
theorem constructedInstanceMeetsInv : Obligations.ConstructedInstanceMeetsInv := by
  refine ⟨fun p turns hp => inv_resetEngine (s := { State.reset with params := p, schedule := turns }) hp,
    fun p n hlen htick hstart hn => ⟨?legal, rfl⟩⟩
  case legal =>
    exact
      { memSize_min := Nat.le_max_left 32 n
        memSize_max := max_lt (by decide) hn
        progLen_max := hlen
        tick_le := htick
        start_le := fun hv => by
          obtain ⟨k, hk⟩ := Option.isSome_iff_exists.1 hv
          exact (congrArg (·.getD 0) hk).trans_le (hstart k hk)
        init_wf := rfl
        init_below := rfl }

end Sys2Proof.Machine
end

section
/-! SUPPORT. Which words the decoder accepts, slot by slot (spec 30_encoding.md R48, R51, R55, R58): the role of each slot in
each opcode's shape, and the statements about the well-formed words and the opcode map. -/

namespace Sys2Proof

/-- What a slot is in an opcode's shape (R51). -/
inductive Role
  | dest | source | target | unused

def Role.isSource : Role → Bool
  | .source => true
  | .dest | .target | .unused => false

/-- The four slots' roles (R51). -/
def Opcode.roles : Opcode → Role × Role × Role × Role
  | .mov | .not => (.dest, .source, .unused, .unused)
  | .add | .sub | .mul | .div | .mod | .less | .equal => (.dest, .source, .source, .unused)
  | .jmp => (.target, .source, .unused, .unused)
  | .color => (.source, .source, .source, .unused)
  | .point => (.source, .source, .unused, .unused)
  | .line | .rect => (.source, .source, .source, .source)

/-- The kind and value fields that a role accepts (R55). -/
def Role.accepts : Role → BitVec 2 → Word → Prop
  | .dest, k, _ => k = 2
  | .source, k, _ => sourceSlotOk k
  | .target, k, v => k = 3 ∧ v.msb = false
  | .unused, k, v => unusedSlotOk k v

/-- Every slot is accepted in its role. -/
def Fields.Fits (f : Fields) (o : Opcode) : Prop :=
  o.roles.1.accepts f.k0 f.v0 ∧ o.roles.2.1.accepts f.k1 f.v1 ∧ o.roles.2.2.1.accepts f.k2 f.v2 ∧
    o.roles.2.2.2.accepts f.k3 f.v3

section slots

variable {k : BitVec 2} {v : Word}

theorem exists_destOf : (∃ d, destOf k v = .ok d) ↔ Role.dest.accepts k v := by
  simp [destOf_eq, Role.accepts, kindAddr]

theorem exists_sourceOf : (∃ a, sourceOf k v = .ok a) ↔ Role.source.accepts k v := by
  constructor
  · rintro ⟨a, h⟩
    obtain ⟨rfl, -⟩ := sourceOf_eq.1 h
    cases a with
    | imm v => exact .inl rfl
    | addr a => exact .inr rfl
  · rintro (rfl | rfl)
    · exact ⟨.imm v, rfl⟩
    · exact ⟨.addr v, rfl⟩

theorem exists_targetOf : (∃ t, targetOf k v = .ok t) ↔ Role.target.accepts k v := by
  simp [targetOf_eq, Role.accepts, kindTgt, targetOk]

theorem exists_unusedSlot : (∃ u, unusedSlot k v = .ok u) ↔ Role.unused.accepts k v := by
  simp [unusedSlot_eq, Role.accepts, unusedSlotOk, kindNone]

end slots

/-- A shape is decoded exactly when its slots are accepted in their roles. -/
theorem exists_decodeShape (f : Fields) (o : Opcode) : (∃ i, decodeShape f o = .ok i) ↔ f.Fits o := by
  cases o with
  | mov | not =>
    simp only [Fields.Fits, Opcode.roles, ← exists_destOf, ← exists_sourceOf, ← exists_unusedSlot, decodeShape, shapeDS,
      except_bind_eq_ok, except_pure_eq_ok]
    grind
  | add | sub | mul | div | mod | less | equal =>
    simp only [Fields.Fits, Opcode.roles, ← exists_destOf, ← exists_sourceOf, ← exists_unusedSlot, decodeShape, shapeDSS,
      except_bind_eq_ok, except_pure_eq_ok]
    grind
  | jmp =>
    simp only [Fields.Fits, Opcode.roles, ← exists_targetOf, ← exists_sourceOf, ← exists_unusedSlot, decodeShape, shapeTS,
      except_bind_eq_ok, except_pure_eq_ok]
    grind
  | color =>
    simp only [Fields.Fits, Opcode.roles, ← exists_sourceOf, ← exists_unusedSlot, decodeShape, shapeSSS,
      except_bind_eq_ok, except_pure_eq_ok]
    grind
  | point =>
    simp only [Fields.Fits, Opcode.roles, ← exists_sourceOf, ← exists_unusedSlot, decodeShape, shapeSS,
      except_bind_eq_ok, except_pure_eq_ok]
    grind
  | line | rect =>
    simp only [Fields.Fits, Opcode.roles, ← exists_sourceOf, decodeShape, shapeSSSS, except_bind_eq_ok, except_pure_eq_ok]
    grind

/-- A word decodes to an instruction of opcode `o` exactly when its fields are `o`'s number, zero reserved bits and slots
that `o`'s shape accepts. -/
theorem decodes_to_opcode_iff (w : InstrWord) (o : Opcode) : (∃ i, decode w = .ok i ∧ i.opcode = o) ↔
    (Fields.ofWord w).op = o.number ∧ (Fields.ofWord w).rsv = 0 ∧ (Fields.ofWord w).Fits o := by
  rw [← exists_decodeShape]
  constructor
  · rintro ⟨i, h, rfl⟩
    obtain ⟨o, hop, hr, hd⟩ := decodeFields_eq.1 h
    obtain ⟨rfl, -, -⟩ := fields_of_decodeShape hd hop hr
    exact ⟨hop, hr, i, hd⟩
  · rintro ⟨hop, hr, i, hd⟩
    exact ⟨i, decodeFields_eq.2 ⟨o, hop, hr, hd⟩, (fields_of_decodeShape hd hop hr).1⟩

theorem Opcode.exists_number {n : BitVec 4} (h : n.toNat ≤ 13) : ∃ o, n = Opcode.number o := by
  have hsome : ∀ n : BitVec 4, n.toNat ≤ 13 → (Opcode.ofNumber n).isSome := by decide
  obtain ⟨o, ho⟩ := Option.isSome_iff_exists.1 (hsome n h)
  exact ⟨o, (Opcode.number_of_ofNumber ho).symm⟩

section layout

/-! The spec's slices are the layout's fields (R48). -/

variable (w : InstrWord)

theorem kindBits_zero : kindBits w 0 = (Fields.ofWord w).k0 := rfl
theorem kindBits_one : kindBits w 1 = (Fields.ofWord w).k1 := rfl
theorem kindBits_two : kindBits w 2 = (Fields.ofWord w).k2 := rfl
theorem kindBits_three : kindBits w 3 = (Fields.ofWord w).k3 := rfl

theorem targetBit_eq : w.getLsbD 127 = (Fields.ofWord w).v0.msb := by
  simp [Fields.ofWord, BitVec.msb_eq_getLsbD_last]

theorem restUnused_iff (n : Nat) : restUnused w n ↔ (Fields.ofWord w).rsv = 0 ∧
    (n ≤ 2 → Role.unused.accepts (Fields.ofWord w).k2 (Fields.ofWord w).v2) ∧
    (n ≤ 3 → Role.unused.accepts (Fields.ofWord w).k3 (Fields.ofWord w).v3) := Iff.rfl

end layout

/-- The clause of the spec's list that a word's opcode selects (R51). -/
theorem wellFormedWord_of_op {w : InstrWord} {o : Opcode} (h : (Fields.ofWord w).op = o.number) :
    wellFormedWord w ↔ (Fields.ofWord w).rsv = 0 ∧ (Fields.ofWord w).Fits o := by
  have hop : w.extractLsb' 140 4 = o.number := h
  simp only [wellFormedWord, hop, kindBits_zero, kindBits_one, kindBits_two, kindBits_three, targetBit_eq, restUnused_iff,
    Fields.Fits]
  cases o <;> simp [Opcode.number, Opcode.roles, Role.accepts, and_assoc, and_left_comm, and_comm]

/-- The spec's list of the well-formed words (R51, R59), opcode by opcode. -/
theorem wellFormedWord_iff (w : InstrWord) : wellFormedWord w ↔
    ∃ o, (Fields.ofWord w).op = Opcode.number o ∧ (Fields.ofWord w).rsv = 0 ∧ (Fields.ofWord w).Fits o := by
  constructor
  · intro h
    have hle : (w.extractLsb' 140 4).toNat ≤ 13 := by
      unfold wellFormedWord at h
      omega
    obtain ⟨o, ho⟩ := Opcode.exists_number hle
    exact ⟨o, ho, (wellFormedWord_of_op ho).1 h⟩
  · rintro ⟨o, ho, h⟩
    exact (wellFormedWord_of_op ho).2 h

/-- Settles O3: opcode by opcode, both sides ask for the same fields. -/
theorem decodesExactlyTheWellFormedWords : Obligations.DecodesExactlyTheWellFormedWords := by
  intro w
  rw [wellFormedWord_iff]
  simp only [← decodes_to_opcode_iff]
  exact ⟨fun ⟨i, h⟩ => ⟨i.opcode, i, h, rfl⟩, fun ⟨_, i, h, _⟩ => ⟨i, h⟩⟩

section masks

/-! A row of the opcode map fixes, role by role, the bits of each slot's fields (R58). -/

/-- The bits of the kind field that a row fixes: all of them, or those of a source left to the row's constraint. -/
def Role.kindMask : Role → BitVec 2
  | .source => 0
  | .dest | .target | .unused => BitVec.allOnes 2

/-- The kind that a row asks for. -/
def Role.kindMatch : Role → BitVec 2
  | .dest => 2
  | .target => 3
  | .source | .unused => 0

/-- The bits of the value field that a row fixes, at 0. -/
def Role.valueMask : Role → Word
  | .dest | .source => 0
  | .target => BitVec.twoPow 32 31
  | .unused => BitVec.allOnes 32

theorem and_twoPow_eq_zero_iff (v : Word) : v &&& BitVec.twoPow 32 31 = 0 ↔ v.msb = false := by
  rw [BitVec.and_twoPow, BitVec.msb_eq_getLsbD_last]
  cases v.getLsbD 31 <;> simp

/-- A role's acceptance is its masks and, for a source, the row's constraint. -/
theorem Role.accepts_iff (r : Role) (k : BitVec 2) (v : Word) : r.accepts k v ↔
    (k &&& r.kindMask = r.kindMatch ∧ v &&& r.valueMask = 0) ∧ (r.isSource = true → sourceSlotOk k) := by
  cases r with
  | source => simp [Role.accepts, Role.isSource, Role.kindMask, Role.kindMatch, Role.valueMask]
  | dest | target | unused =>
    simp only [Role.accepts, Role.isSource, unusedSlotOk, Role.kindMask, Role.kindMatch, Role.valueMask,
      BitVec.and_allOnes, and_twoPow_eq_zero_iff]
    simp

/-- Bitwise conjunction, field by field. -/
def Fields.and (f g : Fields) : Fields :=
  ⟨f.op &&& g.op, f.k0 &&& g.k0, f.k1 &&& g.k1, f.k2 &&& g.k2, f.k3 &&& g.k3, f.rsv &&& g.rsv,
    f.v0 &&& g.v0, f.v1 &&& g.v1, f.v2 &&& g.v2, f.v3 &&& g.v3⟩

theorem Fields.ofWord_and (w m : InstrWord) : Fields.ofWord (w &&& m) = (Fields.ofWord w).and (Fields.ofWord m) := by
  simp only [Fields.ofWord, Fields.and, BitVec.extractLsb'_and]

theorem Fields.ofWord_inj {w w' : InstrWord} : Fields.ofWord w = Fields.ofWord w' ↔ w = w' :=
  ⟨fun h => by rw [← Fields.toWord_ofWord w, h, Fields.toWord_ofWord], fun h => by rw [h]⟩

/-- The fields of a row's column `mask`. -/
def Opcode.maskFields (o : Opcode) : Fields :=
  let (r0, r1, r2, r3) := o.roles
  ⟨15, r0.kindMask, r1.kindMask, r2.kindMask, r3.kindMask, 15, r0.valueMask, r1.valueMask, r2.valueMask, r3.valueMask⟩

/-- The fields of a row's column `match`. -/
def Opcode.matchFields (o : Opcode) : Fields :=
  let (r0, r1, r2, r3) := o.roles
  ⟨o.number, r0.kindMatch, r1.kindMatch, r2.kindMatch, r3.kindMatch, 0, 0, 0, 0, 0⟩

/-- The source slots that a row constrains. -/
def Opcode.sourceSlots (o : Opcode) : List Nat :=
  let (r0, r1, r2, r3) := o.roles
  (if r0.isSource then [0] else []) ++ (if r1.isSource then [1] else []) ++
    (if r2.isSource then [2] else []) ++ (if r3.isSource then [3] else [])

theorem Opcode.forall_sourceSlots (o : Opcode) (P : Nat → Prop) : (∀ n ∈ o.sourceSlots, P n) ↔
    (o.roles.1.isSource = true → P 0) ∧ (o.roles.2.1.isSource = true → P 1) ∧ (o.roles.2.2.1.isSource = true → P 2) ∧
      (o.roles.2.2.2.isSource = true → P 3) := by
  have slot (p : Bool) (n : Nat) : (∀ m ∈ if p then [n] else [], P m) ↔ (p = true → P n) := by
    cases p <;> simp
  simp only [Opcode.sourceSlots, List.forall_mem_append, slot, and_assoc]

/-- The table of R58 is the one that the roles give. -/
theorem opcodeMap_row : ∀ r ∈ opcodeMap, Fields.ofWord r.mask = r.op.maskFields ∧
    Fields.ofWord r.bits = r.op.matchFields ∧ r.sources = r.op.sourceSlots := by
  decide

end masks

/-- The opcode field selects the row. -/
theorem opcodeMap_op_inj : ∀ r ∈ opcodeMap, ∀ r' ∈ opcodeMap, r.op.number = r'.op.number → r = r' := by
  decide

/-- Matching a row, field by field. -/
theorem matches_row_iff {w : InstrWord} {r : OpRow} (hr : r ∈ opcodeMap) :
    w &&& r.mask = r.bits ↔ (Fields.ofWord w).and r.op.maskFields = r.op.matchFields := by
  obtain ⟨hmask, hbits, -⟩ := opcodeMap_row r hr
  rw [← Fields.ofWord_inj, Fields.ofWord_and, hmask, hbits]

/-- Settles O5: a word's opcode field is that of every row it matches. -/
theorem opcodeMapRowsAreDisjoint : Obligations.OpcodeMapRowsAreDisjoint := by
  intro w r hr r' hr' h h'
  have op_of_match : ∀ q ∈ opcodeMap, w &&& q.mask = q.bits → (Fields.ofWord w).op &&& 15 = q.op.number :=
    fun q hq hm => congrArg Fields.op ((matches_row_iff hq).1 hm)
  exact opcodeMap_op_inj r hr r' hr' ((op_of_match r hr h).symm.trans (op_of_match r' hr' h'))

/-- Settles O4: slot by slot, the role accepts what the row's mask and constraint ask for. -/
theorem opcodeMapRowsDecide : Obligations.OpcodeMapRowsDecide := by
  intro w r hr
  have hones (n : BitVec 4) : n &&& 15 = n := BitVec.and_allOnes
  rw [decodes_to_opcode_iff, matches_row_iff hr, (opcodeMap_row r hr).2.2, Opcode.forall_sourceSlots]
  simp only [Fields.Fits, Role.accepts_iff, Opcode.maskFields, Opcode.matchFields, Fields.and, Fields.mk.injEq, hones,
    kindBits_zero, kindBits_one, kindBits_two, kindBits_three]
  constructor
  · rintro ⟨hop, hrsv, ⟨⟨k0, v0⟩, s0⟩, ⟨⟨k1, v1⟩, s1⟩, ⟨⟨k2, v2⟩, s2⟩, ⟨k3, v3⟩, s3⟩
    exact ⟨⟨hop, k0, k1, k2, k3, hrsv, v0, v1, v2, v3⟩, s0, s1, s2, s3⟩
  · rintro ⟨⟨hop, k0, k1, k2, k3, hrsv, v0, v1, v2, v3⟩, s0, s1, s2, s3⟩
    exact ⟨hop, hrsv, ⟨⟨k0, v0⟩, s0⟩, ⟨⟨k1, v1⟩, s1⟩, ⟨⟨k2, v2⟩, s2⟩, ⟨k3, v3⟩, s3⟩

end Sys2Proof
end

section
/-! SUPPORT. The packing of draw commands (10_state.md section 7, decision D22) and the statement about it, and the sample
words. -/

namespace Sys2Proof.Machine

open Sys2Proof

/-- Both halves of an append can be read off it. -/
theorem bitVec_append_inj {m n : Nat} {x x' : BitVec m} {y y' : BitVec n} (h : x ++ y = x' ++ y') : x = x' ∧ y = y' := by
  constructor
  · rw [← BitVec.extractLsb'_append_eq_left (a := x) (b := y), h, BitVec.extractLsb'_append_eq_left]
  · rw [← BitVec.extractLsb'_append_eq_right (a := x) (b := y), h, BitVec.extractLsb'_append_eq_right]

/-- The tag and the four arguments can be read off 130 bits (R28). -/
theorem packed_inj {k k' : BitVec 2} {a b c d a' b' c' d' : Word}
    (h : (k ++ a ++ b ++ c ++ d : BitVec 130) = (k' ++ a' ++ b' ++ c' ++ d' : BitVec 130)) :
    k = k' ∧ a = a' ∧ b = b' ∧ c = c' ∧ d = d' := by
  obtain ⟨h, hd⟩ := bitVec_append_inj (m := 98) (n := 32) h
  obtain ⟨h, hc⟩ := bitVec_append_inj (m := 66) (n := 32) h
  obtain ⟨h, hb⟩ := bitVec_append_inj (m := 34) (n := 32) h
  obtain ⟨hk, ha⟩ := bitVec_append_inj (m := 2) (n := 32) h
  exact ⟨hk, ha, hb, hc, hd⟩

/-- Settles O7: the tag names the command, and the arguments are its operands. -/
theorem packedCommandDeterminesCommand : Obligations.PackedCommandDeterminesCommand := by
  intro c c' h
  cases c <;> cases c' <;> simpa using packed_inj h

/-- Settles O6, by running the decoder on each word. -/
theorem sampleWordsDecode : Obligations.SampleWordsDecode := by
  unfold Obligations.SampleWordsDecode
  decide

end Sys2Proof.Machine
end

section
/-! SUPPORT. The Loader's function (spec 30_encoding.md section 6; assumption 23): every line it accepts is a well-formed
instruction, and every label is an index of the program or its end. Then the statement about loaded programs. -/

namespace Sys2Proof.Machine

open Sys2Proof

section lines

variable {labels : Labels} {ops : List Token} {i : Instr}

/-- A jump target's field has bit 31 clear (R54, R64). -/
theorem targetOk_of_targetField {n : Nat} {t : Word} (h : targetField n = .ok t) : targetOk t = true := by
  unfold targetField at h
  split at h
  · cases h
    have hlt : (BitVec.ofNat 32 n).toNat < 2 ^ 31 := (Nat.mod_le n _).trans_lt ‹n < indexBound›
    simpa [targetOk, BitVec.msb_eq_decide] using hlt
  · cases h

theorem targetOk_of_targetToken {t : Token} {w : Word} (h : targetToken labels t = .ok w) : targetOk w = true := by
  unfold targetToken at h
  split at h
  · cases h
  · cases h
  · split at h
    · cases h
    · exact targetOk_of_targetField h
  · split at h
    · cases h
    · exact targetOk_of_targetField h

/-- A line that the Loader accepts is a well-formed instruction (R51, R64). -/
theorem wf_of_lineInstr {o : Opcode} (h : lineInstr labels o ops = .ok i) : i.wf = true := by
  cases o with
  | jmp =>
    change lineTS labels .jmp ops = .ok i at h
    unfold lineTS at h
    split at h
    · simp only [except_bind_eq_ok, except_pure_eq_ok] at h
      obtain ⟨t, ht, c, -, rfl⟩ := h
      exact targetOk_of_targetToken ht
    · cases h
  | _ =>
    simp only [lineInstr, lineDS, lineDSS, lineSS, lineSSS, lineSSSS] at h
    split at h
    · simp only [except_bind_eq_ok, except_pure_eq_ok] at h
      grind [Instr.wf]
    · cases h

end lines

/-- The second pass gives well-formed instructions. -/
theorem wf_of_assemble {labels : Labels} {ls : List Line} : ∀ {is : List Instr}, assemble labels ls = .ok is →
    ∀ i ∈ is, i.wf = true := by
  induction ls with
  | nil =>
    intro is h
    cases h
    exact nofun
  | cons l ls ih =>
    intro is h
    cases l with
    | label t => exact ih h
    | instr o ops =>
      unfold assemble at h
      split at h
      · cases h
      · rename_i i hi
        split at h
        · cases h
        · rename_i is' his
          cases h
          exact List.forall_mem_cons.2 ⟨wf_of_lineInstr hi, ih his⟩

/-- A label's value is at most the number of instructions after the ones already counted (R63). -/
theorem label_le_of_collectLabels {labels : Labels} {ls : List Line} : ∀ {n : Nat} {m : Labels} {is : List Instr},
    collectLabels n ls = .ok m → assemble labels ls = .ok is → ∀ e ∈ m, e.2 ≤ n + is.length := by
  induction ls with
  | nil =>
    intro n m is hm his
    cases hm
    exact nofun
  | cons l ls ih =>
    intro n m is hm his
    cases l with
    | label t =>
      unfold collectLabels at hm
      split at hm
      · cases hm
      · rename_i m' hm'
        split at hm
        · cases hm
        · cases hm
          exact List.forall_mem_cons.2 ⟨Nat.le_add_right _ _, ih hm' his⟩
    | instr o ops =>
      unfold assemble at his
      split at his
      · cases his
      · split at his
        · cases his
        · rename_i is' his'
          cases his
          intro e he
          have hle := ih hm his' e he
          rw [List.length_cons]
          omega

theorem mem_of_lookup {m : Labels} {t : Token} {n : Nat} (h : m.lookup t = some n) : (t, n) ∈ m := by
  obtain ⟨l₁, l₂, rfl, -⟩ := List.lookup_eq_some_iff.1 h
  simp

/-- What a program that a text stands for is made of (R63, R65). -/
theorem exists_of_load {text : List Char} {p : Program} (h : load text = .ok p) :
    ∃ ls labels is, collectLabels 0 ls = .ok labels ∧ assemble labels ls = .ok is ∧ p.words = is.map encode ∧
      labels.lookup ['t', 'i', 'c', 'k'] = some p.tick ∧ labels.lookup ['s', 't', 'a', 'r', 't'] = p.start := by
  unfold load at h
  split at h
  · cases h
  · rename_i ls hls
    unfold programOf at h
    split at h
    · cases h
    · rename_i labels hlabels
      split at h
      · cases h
      · rename_i is his
        split at h
        · cases h
        · rename_i tick htick
          cases h
          exact ⟨ls, labels, is, hlabels, his, rfl, htick, rfl⟩

/-- Settles O8: the words are those of well-formed instructions, and the entry points are labels. -/
theorem loadedProgramIsLegal : Obligations.LoadedProgramIsLegal := by
  intro text p h
  obtain ⟨ls, labels, is, hlabels, his, hwords, htick, hstart⟩ := exists_of_load h
  have hlabel : ∀ t n, labels.lookup t = some n → n ≤ p.words.length := by
    intro t n hn
    have := label_le_of_collectLabels hlabels his _ (mem_of_lookup hn)
    simpa [hwords] using this
  refine ⟨fun w hw => ?wellFormed, hlabel _ _ htick, fun n hn => hlabel _ n (hstart.trans hn)⟩
  case wellFormed =>
    rw [hwords] at hw
    obtain ⟨i, hi, rfl⟩ := List.mem_map.1 hw
    exact (decodesExactlyTheWellFormedWords _).1 ⟨i, decode_eq_ok_iff.2 ⟨wf_of_assemble his i hi, rfl⟩⟩

end Sys2Proof.Machine
end

section
/-! SUPPORT. The engine's turn (45_run_control.md R93 to R95): what its step is in each case, and the statements about the
end of a run, ill-formed words, and runs that never end. -/

namespace Sys2Proof.Machine

open Sys2Proof

section engineTurn

variable {s : State}

/-- Between runs an engine's turn keeps the engine's state (R113). -/
theorem step_of_not_running (ht : EngineTurn s) (hr : s.running = false) : step s = .next s.turnTaken := by
  rw [step_of_engineTurn ht, State.engineMove, State.turnTaken_running, hr]
  rfl

/-- A run that has reached its end is over (R95). -/
theorem step_of_runEnded (ht : EngineTurn s) (hr : s.running = true)
    (he : s.params.progLen ≤ s.pc ∨ (s.phase = .runStart ∧ s.pc = s.params.tickPc)) :
    step s = .next s.turnTaken.endRun := by
  have hend : s.turnTaken.runEnded = true := (State.runEnded_iff _).2 (by simpa using he)
  rw [step_of_engineTurn ht, State.engineMove, State.turnTaken_running, hr, hend]
  rfl

/-- A run that goes on executes the word at `pc` (R93, R94). -/
theorem step_of_fetch {w : InstrWord} (ht : EngineTurn s)
    (hp : s.phase = .runTick ∨ (s.phase = .runStart ∧ s.pc ≠ s.params.tickPc)) (hw : s.params.imem[s.pc]? = some w) :
    step s = s.turnTaken.runWord w := by
  have hlt : s.pc < s.params.progLen := (List.getElem?_eq_some_iff.1 hw).1
  have hrun : s.turnTaken.running = true := by
    rw [State.turnTaken_running]
    exact State.phase_of_running.2 (hp.symm.imp_left And.left)
  have hend : s.turnTaken.runEnded = false := by
    rw [← Bool.not_eq_true, State.runEnded_iff]
    simp only [State.turnTaken_params, State.turnTaken_pc, State.turnTaken_phase]
    rintro (hle | ⟨hstart, htick⟩)
    · exact absurd hle (not_le.2 hlt)
    · rcases hp with hp | ⟨-, hne⟩
      · rw [hp] at hstart
        cases hstart
      · exact hne htick
  rw [step_of_engineTurn ht]
  exact State.engineMove_of_run hrun hend (by simpa using hw)

theorem State.runWord_of_decode {w : InstrWord} {i : Instr} (h : decode w = .ok i) : s.runWord w = exec i s := by
  rw [State.runWord, h]

theorem State.runWord_of_illFormed {w : InstrWord} (h : ¬ wellFormedWord w) :
    s.runWord w = .next (s.takeFault .illegalInstruction (opcodeField w)) := by
  cases hd : decode w with
  | error e => rw [State.runWord, hd]
  | ok i => exact absurd ((decodesExactlyTheWellFormedWords w).1 ⟨i, hd⟩) h

end engineTurn

/-- Settles O13, by the fetched word's decoding. -/
theorem stepRunsTheDecodedInstruction : Obligations.StepRunsTheDecodedInstruction := by
  rintro s i ⟨ht, hp, w, hw, hd⟩
  rw [step_of_fetch ht hp hw, State.runWord_of_decode hd]

/-- Settles O14: the decoder accepts no ill-formed word. -/
theorem illFormedWordTakesIllegalInstruction : Obligations.IllFormedWordTakesIllegalInstruction := by
  intro s w ht hp hw hill
  rw [step_of_fetch ht hp hw, State.runWord_of_illFormed hill]
  rfl

/-- Settles O15, by the end-of-run test. -/
theorem runEndsNormally : Obligations.RunEndsNormally :=
  fun _ ht hr he => step_of_runEnded ht hr he

/-- Settles O16: neither phase is one in which the engine steps by itself. -/
theorem idleEngineKeepsState : Obligations.IdleEngineKeepsState := by
  intro s ht hp
  refine step_of_not_running ht (Bool.eq_false_iff.2 fun hr => ?_)
  exact not_idle_or_ready_of_running hr hp

/-- With an unbounded queue no instruction stops (U4). -/
theorem exec_next_of_unbounded (i : Instr) {s : State} (hq : s.params.dqDepth = none) : ∃ t, exec i s = .next t := by
  rcases exec_ends i s with ⟨k, -, hx⟩ | ⟨-, he⟩
  case inl => exact ⟨_, hx⟩
  case inr =>
    cases he with
    | stores d r hd hv hx => exact ⟨_, hx⟩
    | jumps p c hi hx => exact ⟨_, hx⟩
    | advances p c hi hx => exact ⟨_, hx⟩
    | draws c col hi hd hc hx =>
      have hroom : s.QueueHasRoom := fun n hn => by simp [hq] at hn
      exact ⟨_, hx.trans (if_pos (s.hasRoom_iff.2 hroom))⟩

/-- Settles O17: the engine's move is a next state by definition, or an instruction's. -/
theorem engineNeverStops : Obligations.EngineNeverStops := by
  intro s ht hq
  rw [step_of_engineTurn ht]
  unfold State.engineMove
  split
  · split
    · exact ⟨_, rfl⟩
    · unfold State.runWord
      split
      · exact ⟨_, rfl⟩
      · exact exec_next_of_unbounded _ (by simpa using hq)
  · exact ⟨_, rfl⟩

theorem State.turnTaken_of_schedule_nil {s : State} (h : s.schedule = []) : s.turnTaken = s := by
  simp [State.turnTaken, h]

theorem exec_jmp (t : Word) (c : Operand) (s : State) : exec (.jmp t c) s = execJmp t c s := rfl

theorem exec_jmp_of_ne_zero {s : State} {c : Operand} (hc : s.readable c) (h : s.valueOf c ≠ 0) (t : Word) :
    exec (.jmp t c) s = .next (s.jumpTo t.toNat) := by
  rw [exec_jmp, execJmp_eq, if_pos hc, if_pos h]

theorem exec_jmp_of_eq_zero {s : State} {c : Operand} (hc : s.readable c) (h : s.valueOf c = 0) (t : Word) :
    exec (.jmp t c) s = .next s.advance := by
  rw [exec_jmp, execJmp_eq, if_pos hc, if_neg (not_not_intro h)]

/-- A run of any machine begins with its step. -/
theorem hostCore_run_succ {M : Host.Core} {s t : M.State} (h : M.step s = .next t) (k : Nat) :
    M.run (k + 1) s = M.run k t := by
  rw [Host.Core.run, h]

theorem core_run_succ {s t : State} (h : step s = .next t) (k : Nat) : core.run (k + 1) s = core.run k t :=
  hostCore_run_succ (M := core) h k

/-- Settles O18: one step leads back to the same state, so any number does. -/
theorem selfJumpRunsForever : Obligations.SelfJumpRunsForever := by
  intro s t v hsched habout hself hv
  have hstep : step s = .next s := by
    rw [stepRunsTheDecodedInstruction s _ habout, State.turnTaken_of_schedule_nil hsched,
      exec_jmp_of_ne_zero (c := .imm v) rfl hv, hself]
    rfl
  intro k
  induction k with
  | zero => rfl
  | succ k ih => rw [core_run_succ hstep, ih]

end Sys2Proof.Machine
end

section
/-! SUPPORT. The host's remaining transactions (45_run_control.md R89, R90, R96, R97; 70_reset_and_hazards.md R114): the
statements about phases, `reset`, the two reads, and a write followed by a read. -/

namespace Sys2Proof.Machine

open Sys2Proof

/-- The engine is between runs exactly in `IDLE` and `READY` (R89). -/
theorem not_running_iff (s : State) : ¬ s.running = true ↔ s.phase = .idle ∨ s.phase = .ready := by
  rw [State.phase_of_running]
  cases s.phase <;> simp

@[simp] theorem Transaction.enabled_readResult (p : Phase) :
    Transaction.readResult.enabled p = true ↔ p = .idle ∨ p = .ready :=
  decide_eq_true_iff

@[simp] theorem Transaction.enabled_readDraw (p : Phase) :
    Transaction.readDraw.enabled p = true ↔ p = .idle ∨ p = .ready :=
  decide_eq_true_iff

/-- The phases in which each transaction is not enabled (R89, R90). -/
theorem Transaction.not_enabled_iff (u : Transaction) (s : State) : ¬ u.enabled s.phase = true ↔
    (u = .runStart ∧ s.phase ≠ .idle) ∨ (u = .runTick ∧ s.phase ≠ .ready) ∨
    (u ≠ .reset ∧ u ≠ .runStart ∧ u ≠ .runTick ∧ s.running = true) := by
  cases u with
  | reset => simp [Transaction.enabled]
  | runStart | runTick => simp
  | hostRead | hostWrite | readResult | readDraw =>
    have hrun := (not_running_iff s).symm.not_left
    simp [hrun]

/-- Settles O21: the model stops by that name exactly when the phase does not enable the transaction. -/
theorem outOfPhaseTransactionHasNoMove : Obligations.OutOfPhaseTransactionHasNoMove := by
  intro s u hi
  rw [← Transaction.not_enabled_iff]
  by_cases he : u.enabled s.phase = true
  · exact iff_of_false (by rw [step_of_issues_enabled hi he]; exact nofun) (not_not_intro he)
  · exact iff_of_true (step_of_issues_disabled hi he) he

/-- Settles O22: every phase enables `reset`, whose effect is the engine's reset values. -/
theorem resetTransaction : Obligations.ResetTransaction :=
  fun _ hi => step_of_issues_enabled hi rfl

/-- Settles O24: between runs both reads are enabled, and each only answers. -/
theorem hostReadsResultAndQueue : Obligations.HostReadsResultAndQueue := by
  refine fun s hp => ⟨fun hi => ?result, fun hi => ?draw⟩
  case result => exact step_of_issues_enabled hi ((Transaction.enabled_readResult _).2 hp)
  case draw => exact step_of_issues_enabled hi ((Transaction.enabled_readDraw _).2 hp)

/-- Settles O25: the write leaves the phase and `MEM_SIZE`, so the read that follows answers the slot it wrote. -/
theorem hostReadsBackItsWrite : Obligations.HostReadsBackItsWrite := by
  intro s a v l hm hp ha hsched
  obtain ⟨t, hwrite, ht, hslot, -⟩ := step_hostWrite_of_validAddr (v := v) hm hp (congrArg List.head? hsched) ha
  have hsched' : t.schedule = .issue (.hostRead a) :: l := by rw [ht]; simp [State.answered, hsched]
  have hread : step t = .next (t.answered (.value v)) := by
    rw [step_hostRead (by rw [ht]; exact hp) (congrArg List.head? hsched'), if_pos (by rw [ht]; exact ha), hslot]
  refine ⟨_, (core_run_succ hwrite 1).trans (core_run_succ hread 0), ?replies, hslot, ?schedule⟩
  case replies => rw [ht]; simp [State.answered]
  case schedule => simp [State.answered, hsched']

end Sys2Proof.Machine
end

section
/-! SUPPORT. What instructions and steps can change (10_state.md section 7), and what a fault leaves (60_exceptions.md
sections 2 and 3): the statements about writers, faults, frames and the draw queue. -/

namespace Sys2Proof.Machine

open Sys2Proof

/-- What an instruction that goes on can have written (10_state.md section 7). -/
structure ExecWrites (i : Instr) (s t : State) : Prop where
  mem : t.mem ≠ s.mem → i.dest ≠ none
  cc : t.cc ≠ s.cc → i.opcode = .color
  dq : t.dq ≠ s.dq → i.draws = true
  phase_res : t.phase ≠ s.phase ∨ t.res ≠ s.res → t.phase = .ready ∧ t.pc = s.pc

theorem exec_writes {i : Instr} {s t : State} (h : exec i s = .next t) : ExecWrites i s t := by
  cases exec_to h with
  | faults k hk ht => subst ht; constructor <;> simp
  | stores d r hk hd hv ht => subst ht; constructor <;> simp [hd]
  | jumps p c hk hi ht => subst ht; constructor <;> simp
  | advances p c hk hi ht => subst ht; constructor <;> simp
  | draws c col hk hi hc hroom ht =>
    subst ht
    exact ⟨fun hm => absurd rfl hm, fun hcol => by_contra fun hne => hcol (hc hne), fun _ => hi, by simp⟩

/-- Settles O26: an engine move outside an instruction keeps all but the phase and the result, an instruction and a
transaction write what their own lists say. -/
theorem writersOfEachPieceOfState : Obligations.WritersOfEachPieceOfState := by
  intro s t h
  have hparams := step_params h
  cases step_moves h with
  | idles ht hr h => subst h; simp
  | ends ht hr he h => subst h; simp [ht, hr]
  | illegal ht hr w hw hd h => subst h; simp [ht, hr]
  | runs i ha h =>
    obtain ⟨hmem, hcc, hdq, hphase⟩ := exec_writes h
    simp only [State.turnTaken_mem, State.turnTaken_cc, State.turnTaken_dq, State.turnTaken_pc, State.turnTaken_phase,
      State.turnTaken_res] at hmem hcc hdq hphase
    exact ⟨fun hne => .inl ⟨i, ha, hmem hne⟩, fun hne => .inl ⟨i, ha, hcc hne⟩, fun hne => .inl ⟨i, ha, hdq hne⟩,
      fun _ => .inl ⟨i, ha⟩, fun hne => .inr (.inr (.inr ⟨ha.1, ha.running, hphase hne⟩)), hparams⟩
  | waits l hs hr h => subst h; simp
  | issues u l hs he h =>
    have hi : Issues s u := congrArg List.head? hs
    obtain ⟨hmem, hcc, hdq, hpc, hphase, -, -⟩ := h ▸ perform_writes u (s.withSchedule l)
    refine ⟨fun hne => ?mem, fun hne => .inr (hcc hne ▸ hi), fun hne => ?dq, fun hne => ?pc, fun hne => ?phase, hparams⟩
    case mem =>
      rcases hmem hne with rfl | ⟨a, v, rfl⟩
      · exact .inr (.inl hi)
      · exact .inr (.inr ⟨a, v, hi, (Transaction.enabled_hostWrite a v _).1 he⟩)
    case dq => rcases hdq hne with rfl | rfl <;> simp [hi]
    case pc => rcases hpc hne with rfl | rfl | rfl <;> simp [hi]
    case phase => rcases hphase hne with rfl | rfl | rfl <;> simp [hi]

/-- Settles O28: an instruction takes its first fault or has its effect, which leaves the phase and the result. -/
theorem firstFaultIsReported : Obligations.FirstFaultIsReported := by
  intro i s
  rcases exec_ends i s with ⟨k, hk, hx⟩ | ⟨hk, he⟩
  case inl =>
    rw [hk, hx]
    refine ⟨fun k' hk' => ?_, nofun⟩
    cases hk'
    rfl
  case inr =>
    rw [hk]
    exact ⟨nofun, fun _ t h => he.keeps_phase_and_res h⟩

/-- Settles O29: of a run's moves only the fault entry makes the status `ERR`. -/
theorem faultsArePrecise : Obligations.FaultsArePrecise := by
  intro s t ht hr hnone h herr
  have hst : s.res.status ≠ .err := by rw [hnone]; decide
  cases step_moves h with
  | idles _ hr' h => rw [hr] at hr'; cases hr'
  | ends _ _ he h => subst h; cases herr
  | illegal _ _ w hw hd h => subst h; exact ⟨rfl, State.turnTaken_pc s, nofun⟩
  | runs i ha h =>
    rcases exec_ends i s.turnTaken with ⟨k, hk, hx⟩ | ⟨hk, he⟩
    case inl =>
      cases hx.symm.trans h
      exact ⟨rfl, State.turnTaken_pc s, nofun⟩
    case inr =>
      rw [(he.keeps_phase_and_res h).2, State.turnTaken_res] at herr
      exact absurd herr hst
  | waits l hs hr' h => rw [hr] at hr'; cases hr'
  | issues u l hs he h => simp [EngineTurn, hs] at ht

/-- With a cleared result, an instruction reports `OutOfBounds` exactly when it is its first fault. -/
theorem exec_outOfBounds_iff (i : Instr) {s : State} (hres : s.res = .cleared) :
    (∃ t, exec i s = .next t ∧ t.res.cause = some .outOfBounds) ↔ firstFault i s = some .outOfBounds := by
  constructor
  · rintro ⟨t, h, hc⟩
    rcases exec_cause h with ⟨-, hkeep⟩ | ⟨k, hk, hc'⟩
    · rw [hkeep, hres] at hc
      cases hc
    · rw [hk, ← hc', hc]
  · intro hk
    exact ⟨_, (firstFaultIsReported i s).1 _ hk, rfl⟩

/-- Settles O31: without a divisor the first fault is `OutOfBounds` exactly when some address is at or past `MEM_SIZE`. -/
theorem outOfBoundsIgnoresData : Obligations.OutOfBoundsIgnoresData := by
  intro i s s' hv hsize hres hres'
  rw [exec_outOfBounds_iff i hres, exec_outOfBounds_iff i hres', firstFault_eq_outOfBounds_iff hv,
    firstFault_eq_outOfBounds_iff hv, hsize]

/-- Settles O33: each effect is one of the four frames. -/
theorem instructionChangesOneSlotOrOneCommand : Obligations.InstructionChangesOneSlotOrOneCommand := by
  intro i s t hm hnone h
  cases exec_to h with
  | faults k hk ht => rw [hnone] at hk; cases hk
  | stores d r _ hd hv ht => exact .inl ⟨d, r, hd, ht ▸ State.stored_only hm d r⟩
  | jumps p c _ hi ht => subst hi ht; exact .inr (.inr (.inr ⟨rfl, rfl⟩))
  | advances p c _ hi ht => subst hi ht; exact .inr (.inr (.inr ⟨rfl, rfl⟩))
  | draws c col _ hi hc hroom ht =>
    subst ht
    by_cases hcol : i.opcode = .color
    · exact .inr (.inr (.inl ⟨hcol, c, rfl⟩))
    · exact .inr (.inl ⟨hi, hcol, c, by rw [hc hcol]; rfl⟩)

/-- An instruction with a destination appends nothing (R51, R83). -/
theorem draws_of_dest {i : Instr} {d : Word} (h : i.dest = some d) : i.draws = false := by
  cases i with
  | color | point | line | rect => cases h
  | _ => rfl

/-- The queue is full exactly when it has no room (R22). -/
theorem not_queueHasRoom_iff (s : State) : ¬ s.QueueHasRoom ↔ ∃ n, s.params.dqDepth = some n ∧ n ≤ s.dq.length := by
  simp [State.QueueHasRoom]

/-- Settles O34: of what an instruction can do, only the append at a full queue is no next state. -/
theorem drawStopsExactlyAtFullQueue : Obligations.DrawStopsExactlyAtFullQueue := by
  intro i s
  rw [← not_queueHasRoom_iff]
  rcases exec_ends i s with ⟨k, hk, hx⟩ | ⟨hk, he⟩
  case inl =>
    rw [hx, hk]
    exact ⟨iff_of_false nofun fun ⟨_, h, _⟩ => (nomatch h), nofun⟩
  case inr =>
    cases he with
    | stores d r hd hv hx =>
      rw [hx, draws_of_dest hd]
      exact ⟨iff_of_false nofun fun ⟨h, _⟩ => (nomatch h), nofun⟩
    | jumps p c hi hx | advances p c hi hx =>
      rw [hx, hi]
      exact ⟨iff_of_false nofun fun ⟨h, _⟩ => (nomatch h), nofun⟩
    | draws c col hi hd hc hx =>
      rw [hx, State.emit_eq]
      by_cases hroom : s.QueueHasRoom
      · rw [if_pos (s.hasRoom_iff.2 hroom)]
        exact ⟨iff_of_false nofun fun ⟨_, _, h⟩ => h hroom, nofun⟩
      · rw [if_neg (mt s.hasRoom_iff.1 hroom)]
        exact ⟨iff_of_true rfl ⟨hi, hk, hroom⟩, nofun⟩

/-- An instruction keeps the queue or appends one command (R83). -/
theorem exec_dq {i : Instr} {s t : State} (h : exec i s = .next t) : t.dq = s.dq ∨ ∃ c, t.dq = s.dq ++ [c] := by
  cases exec_to h with
  | faults k hk ht => exact .inl (by rw [ht, State.takeFault_dq])
  | stores d r hk hd hv ht => exact .inl (by rw [ht, State.stored_dq])
  | jumps p c hk hi ht => exact .inl (by rw [ht, State.jumpTo_dq])
  | advances p c hk hi ht => exact .inl (by rw [ht, State.advance_dq])
  | draws c col hk hi hc hroom ht => exact .inr ⟨c, by rw [ht, State.drawn_dq]⟩

/-- Settles O35: of the engine's moves only an instruction touches the queue. -/
theorem engineOnlyAppendsToQueue : Obligations.EngineOnlyAppendsToQueue := by
  intro s t ht h
  cases step_moves h with
  | idles _ hr h => exact .inl (by rw [h, State.turnTaken_dq])
  | ends _ hr he h => exact .inl (by rw [h, State.endRun_dq, State.turnTaken_dq])
  | illegal _ hr w hw hd h => exact .inl (by rw [h, State.takeFault_dq, State.turnTaken_dq])
  | runs i ha h => exact State.turnTaken_dq s ▸ exec_dq h
  | waits l hs hr h => exact .inl (by rw [h, State.withSchedule_dq])
  | issues u l hs he h => simp [EngineTurn, hs] at ht

end Sys2Proof.Machine
end

section
/-! SUPPORT. What the one-source sequence (40_data_move.md R67; 42_compare_logic.md R78) does in each case, said once for
both operations; the statements about `mov`, `not`, `sub`, `less` and `div`. -/

namespace Sys2Proof.Machine

open Sys2Proof

section compute1

variable {s : State} {d : Word} {a : Operand}

theorem State.readable_addr : s.readable (.addr d) ↔ s.validAddr d := decide_eq_true_iff

/-- The sequence with both operands in bounds, its next state written out. -/
theorem State.compute1_stored (o : Opcode) (f : Word → Word) (ha : s.readable a) (hd : s.validAddr d) :
    s.compute1 o d a f = .next (s.stored d (f (s.valueOf a))) := by
  rw [State.compute1_eq, if_pos ha, State.store_eq, if_pos hd]

theorem State.compute1_stores (o : Opcode) (f : Word → Word) (hm : s.mem.wf = true) (ha : s.readable a)
    (hd : s.validAddr d) : ∃ t, s.compute1 o d a f = .next t ∧ StoresOnly s t d (f (s.valueOf a)) :=
  ⟨_, State.compute1_stored o f ha hd, State.stored_only hm d _⟩

theorem State.compute1_faults (o : Opcode) (f : Word → Word) (h : ¬ (s.readable a ∧ s.validAddr d)) :
    s.compute1 o d a f = .next (s.faulted .outOfBounds o.number) := by
  rw [State.compute1_eq]
  by_cases ha : s.readable a
  · rw [if_pos ha, State.store_of_not_validAddr fun hd => h ⟨ha, hd⟩]
  · rw [if_neg ha, State.raise_eq]

end compute1

theorem exec_mov (d : Word) (a : Operand) (s : State) : exec (.mov d a) s = s.compute1 .mov d a id := rfl

theorem exec_not (d : Word) (a : Operand) (s : State) : exec (.not d a) s = s.compute1 .not d a notWord := rfl

theorem exec_sub (d : Word) (a b : Operand) (s : State) :
    exec (.sub d a b) s = s.compute2 .sub d a b fun x y => .ok (subWord x y) := rfl

theorem exec_less (d : Word) (a b : Operand) (s : State) :
    exec (.less d a b) s = s.compute2 .less d a b fun x y => .ok (lessWord x y) := rfl

theorem exec_div (d : Word) (a b : Operand) (s : State) :
    exec (.div d a b) s = s.compute2 .div d a b (divWord s.params.divOverflowResult) := rfl

theorem toInt_subWord (x y : Word) : (subWord x y).toInt = wrap32 (x.toInt - y.toInt) := toInt_toI32 _

/-- The boolean tests of the model are those of R76 and R78. -/
theorem lessWord_eq_ite (x y : Word) : lessWord x y = if x.toInt < y.toInt then 1 else 0 := by
  simp only [lessWord, truth, decide_eq_true_eq]

theorem notWord_eq_ite (x : Word) : notWord x = if x = 0 then 1 else 0 := by
  simp only [notWord, truth, decide_eq_true_eq]

theorem toInt_eq_zero_iff (x : Word) : x.toInt = 0 ↔ x = 0 := BitVec.toInt_inj (y := 0)

/-- Settles O36, by the one-source sequence. -/
theorem movCopiesToSlot : Obligations.MovCopiesToSlot := by
  intro d a s
  rw [exec_mov]
  exact ⟨State.compute1_stores .mov id, State.compute1_faults .mov id, (Laws.Header.mov d a).1⟩

/-- Settles O44, by the one-source sequence. -/
theorem notNegatesLogically : Obligations.NotNegatesLogically := by
  intro d a s
  rw [exec_not]
  simp only [toInt_eq_zero_iff, ← notWord_eq_ite]
  exact ⟨State.compute1_stores .not notWord, State.compute1_faults .not notWord, (Laws.Header.not d a).1⟩

/-- Settles O38, by the two-source sequence of an operation that raises nothing. -/
theorem subWrapsToSlot : Obligations.SubWrapsToSlot := by
  intro d a b s
  rw [exec_sub]
  refine ⟨fun hm ha hb hd => ?stores, State.compute2_ok_faults .sub subWord, (Laws.Header.sub d a b).1⟩
  case stores =>
    obtain ⟨t, ht, hframe⟩ := State.compute2_ok_stores .sub subWord hm ha hb hd
    exact ⟨t, _, ht, hframe, toInt_subWord _ _⟩

/-- Settles O42, by the two-source sequence of an operation that raises nothing. -/
theorem lessComparesSigned : Obligations.LessComparesSigned := by
  intro d a b s
  rw [exec_less, ← lessWord_eq_ite]
  exact ⟨State.compute2_ok_stores .less lessWord, State.compute2_ok_faults .less lessWord, (Laws.Header.less d a b).1⟩

section division

variable {x y : Word}

/-- A zero divisor raises (R73). -/
theorem divWord_zero (o x : Word) : divWord o x 0 = .error .divisionByZero := rfl

theorem divOverflows_iff : divOverflows x y = true ↔ x.toInt = -2147483648 ∧ y.toInt = -1 := by
  rw [divOverflows, Bool.and_eq_true, decide_eq_true_eq, decide_eq_true_eq, ← BitVec.toInt_inj, ← BitVec.toInt_inj]
  exact Iff.rfl

/-- The one quotient of two `i32` that is no `i32` is the overflow (R73). -/
theorem truncDiv_bounds (h : ¬ (x.toInt = -2147483648 ∧ y.toInt = -1)) :
    -2 ^ 31 ≤ truncDiv x y ∧ truncDiv x y < 2 ^ 31 := by
  have hx := toInt_bounds x
  unfold truncDiv
  by_cases hone : y.toInt = 1
  · rw [hone, Int.tdiv_one]
    exact hx
  by_cases hneg : y.toInt = -1
  · rw [hneg, Int.tdiv_neg, Int.tdiv_one]
    omega
  by_cases hzero : y.toInt = 0
  · rw [hzero, Int.tdiv_zero]
    omega
  have hhalf : (x.toInt.tdiv y.toInt).natAbs ≤ x.toInt.natAbs / 2 := by
    rw [Int.natAbs_tdiv]
    exact Nat.div_le_div_left (by omega) (by omega)
  omega

/-- `div` by a non-zero divisor (R73, D10). -/
theorem divWord_of_ne_zero (o x : Word) (hy : y ≠ 0) : ∃ r, divWord o x y = .ok r ∧
    if x.toInt = -2147483648 ∧ y.toInt = -1 then r = o else r.toInt = x.toInt.tdiv y.toInt := by
  unfold divWord
  rw [if_neg hy]
  by_cases hov : x.toInt = -2147483648 ∧ y.toInt = -1
  · exact ⟨o, if_pos (divOverflows_iff.2 hov), by rw [if_pos hov]⟩
  · refine ⟨_, if_neg (mt divOverflows_iff.1 hov), ?_⟩
    have hq := truncDiv_bounds hov
    rw [if_neg hov, toInt_toI32, wrap32_of_mem hq.1 hq.2]
    rfl

end division

/-- Settles O40: the result is the truncated quotient or the parameter, and the faults come in the order of the two-source
sequence. -/
theorem divTruncatesToSlot : Obligations.DivTruncatesToSlot := by
  intro d a b s
  rw [exec_div]
  refine ⟨fun hm ha hb hd hy => ?stores, fun ha hb hy => ?zeroDivisor, fun h => ?unreadable,
    fun ha hb hy hd => ?destination, (Laws.Header.div d a b).1⟩
  case stores =>
    obtain ⟨r, hr, hdiv⟩ := divWord_of_ne_zero s.params.divOverflowResult (s.valueOf a) hy
    obtain ⟨t, ht, hframe⟩ := State.store_of_validAddr hm hd .div r
    exact ⟨t, r, (State.compute2_of_ok ha hb hr .div d).trans ht, hframe, hdiv⟩
  case zeroDivisor => exact State.compute2_of_error ha hb (by rw [hy, divWord_zero]) .div d
  case unreadable => exact State.compute2_of_unreadable h .div d
  case destination =>
    obtain ⟨r, hr, -⟩ := divWord_of_ne_zero s.params.divOverflowResult (s.valueOf a) hy
    rw [State.compute2_of_ok ha hb hr, State.store_of_not_validAddr hd]
    rfl

end Sys2Proof.Machine
end

section
/-! SUPPORT. Control transfer and the colour (43_control_flow.md R80; 44_draw_io.md R84): the statements about `jmp` and
`color`. -/

namespace Sys2Proof.Machine

open Sys2Proof

/-- A taken jump to or beyond `PROG_LEN` ends the run at the next step (D12). -/
theorem run_two_of_jmp_past_end {s : State} {t : Word} {c : Operand} (hsched : s.schedule = [])
    (habout : AboutToRun s (.jmp t c)) (hc : s.readable c) (hne : s.valueOf c ≠ 0)
    (hend : s.params.imem.length ≤ t.toNat) : core.run 2 s = .next (s.jumpTo t.toNat).endRun := by
  have hjump : step s = .next (s.jumpTo t.toNat) := by
    rw [stepRunsTheDecodedInstruction s _ habout, State.turnTaken_of_schedule_nil hsched, exec_jmp_of_ne_zero hc hne]
  have hturn : EngineTurn (s.jumpTo t.toNat) := .inl (congrArg List.head? hsched)
  have hstop := step_of_runEnded hturn habout.running (.inl hend)
  rw [State.turnTaken_of_schedule_nil (s := s.jumpTo t.toNat) hsched] at hstop
  exact (core_run_succ hjump 1).trans (core_run_succ hstop 0)

/-- Settles O45, by the condition's value, and for a jump past the end by the two steps. -/
theorem jmpSetsOrAdvancesPc : Obligations.JmpSetsOrAdvancesPc := by
  intro t c s
  refine ⟨fun hc hne => exec_jmp_of_ne_zero hc (mt (toInt_eq_zero_iff _).2 hne) t,
    fun hc h0 => exec_jmp_of_eq_zero hc ((toInt_eq_zero_iff _).1 h0) t, fun hc => ?unreadable, (Laws.Header.jmp t c).1,
    run_two_of_jmp_past_end⟩
  case unreadable => rw [exec_jmp, execJmp_eq, if_neg hc, State.raise_eq]; rfl

/-- The low byte of a component is its remainder modulo 256, negative ones included (D15). -/
theorem toNat_lowByte (x : Word) : ((lowByte x).toNat : Int) = x.toInt % 256 := by
  have hlow : (lowByte x).toNat = x.toNat % 256 := by
    simp [lowByte, BitVec.extractLsb'_toNat]
  have hx := BitVec.toInt_eq_toNat_cond x
  split at hx <;> omega

/-- Settles O46: all three components are read before the append, and the colour is their low bytes. -/
theorem colorAppendsAndSetsColour : Obligations.ColorAppendsAndSetsColour := by
  intro r g b s
  have hexec : exec (.color r g b) s = execColor r g b s := rfl
  rw [hexec, execColor_eq]
  refine ⟨fun hr hg hb hroom => ?appends, fun h => ?unreadable, (Laws.Header.color r g b).1⟩
  case appends =>
    rw [if_pos ⟨hr, hg, hb⟩, State.emit_eq, if_pos (s.hasRoom_iff.2 hroom)]
    exact ⟨_, rfl, rfl, toNat_lowByte _, toNat_lowByte _, toNat_lowByte _⟩
  case unreadable => rw [if_neg h, State.raise_eq]; rfl

end Sys2Proof.Machine
end

section
/-! SUPPORT. Laws over several instructions (30_encoding.md section 5; 41_arithmetic.md section 3; 42_compare_logic.md), and
the state after reset. -/

namespace Sys2Proof.Machine

open Sys2Proof

/-- Settles O50: `mov` writes what the slot holds, which leaves the memory, and the jump is not taken. -/
theorem noOpsChangeOnlyPc : Obligations.NoOpsChangeOnlyPc := by
  refine fun s a t => ⟨fun hm ha => ?mov, exec_jmp_of_eq_zero (c := .imm 0) rfl rfl t⟩
  case mov =>
    have hkeep : s.mem.write a.toInt.toNat (id (s.valueOf (.addr a))) = s.mem := Memory.write_read hm _
    rw [exec_mov, State.compute1_stored .mov id (State.readable_addr.2 ha) ha, State.stored, hkeep]

/-- Settles O51: the two results are the truncated quotient and its remainder. -/
theorem divAndModAgree : Obligations.DivAndModAgree := by
  intro s d e a b hm ha hb hd he hy hov
  obtain ⟨t, q, ht, ⟨-, htd, -⟩, hq⟩ := (divTruncatesToSlot d a b s).1 hm ha hb hd hy
  obtain ⟨u, r, hu, ⟨-, hue, -⟩, hr, -⟩ := (modFollowsDividend e a b s).1 hm ha hb he hy
  rw [if_neg hov] at hq
  refine ⟨t, u, ht, hu, ?_⟩
  rw [htd, hue, hq, hr, mul_comm]
  omega

/-- `not d d` (R78), its next state written out. -/
theorem exec_not_self {s : State} {d : Word} (hd : s.validAddr d) :
    exec (.not d (.addr d)) s = .next (s.stored d (notWord (s.slot d))) :=
  State.compute1_stored .not notWord (State.readable_addr.2 hd) hd

theorem State.stored_slot {s : State} (hm : s.mem.wf = true) (d r : Word) : (s.stored d r).slot d = r :=
  (State.stored_only hm d r).2.1

/-- Settles O52, by the two executions. -/
theorem notTwiceNormalises : Obligations.NotTwiceNormalises := by
  intro s d hm hd
  have hm' : (s.stored d (notWord (s.slot d))).mem.wf = true := Memory.wf_write hm _ _
  refine ⟨_, _, exec_not_self hd, exec_not_self hd, ?_⟩
  rw [State.stored_slot hm', State.stored_slot hm, notWord_eq_ite, notWord_eq_ite]
  by_cases h0 : s.slot d = 0 <;> simp [h0]

/-- Settles O53, by the two executions: `not` turns the strict comparison's 0 and 1 around. -/
theorem lessThenNotIsAtMost : Obligations.LessThenNotIsAtMost := by
  intro s d a b hm ha hb hd
  have hless : exec (.less d b a) s = .next (s.stored d (lessWord (s.valueOf b) (s.valueOf a))) := by
    rw [exec_less, State.compute2_of_ok hb ha rfl, State.store_eq, if_pos hd]
  have hm' : (s.stored d (lessWord (s.valueOf b) (s.valueOf a))).mem.wf = true := Memory.wf_write hm _ _
  refine ⟨_, _, hless, exec_not_self hd, ?less, ?atMost⟩
  case less => rw [State.stored_slot hm, lessWord_eq_ite]
  case atMost =>
    rw [State.stored_slot hm', State.stored_slot hm, notWord_eq_ite, lessWord_eq_ite]
    by_cases hlt : (s.valueOf b).toInt < (s.valueOf a).toInt
    · simp [hlt]
    · simp [hlt, not_lt.1 hlt]

/-- Settles O9, field by field; its memory lists no slot. -/
theorem resetStateValues : Obligations.ResetStateValues :=
  ⟨rfl, rfl, rfl, rfl, rfl, fun _ => rfl, rfl, rfl, rfl⟩

end Sys2Proof.Machine
end
